-- ==== Sys2Proof/Word.lean ====
section
/-! DEFINITION. The two word types of the hardware: bytes (`u8`) and words (`u16`), spec/00_scope.md section 5
and rule R4 (`XLEN` = 8, `ALEN` = 16). Byte-order helpers stand in Decode.lean. -/

namespace Sys2Proof

/-- `u8`: the width of A, X, Y, P and of every memory cell (R4, `XLEN`). -/
abbrev Byte := BitVec 8

/-- `u16`: the width of PC and of every address (R4, `ALEN`). -/
abbrev Word := BitVec 16

end Sys2Proof
end

