-- ==== Sys2Proof/Syntax.lean ====
section
/-! DEFINITION. The instruction set as data: registers, addressing modes, the operation set, dispatch-table
entries (spec/30_encoding.md R82, R86), and `Instr`, one constructor per row of spec/opcode_table.json,
carrying the operand bytes that follow the opcode byte (R80: `d8` for format F2, `a16` for format F3). -/

namespace Sys2Proof

/-- The three general registers (R10). -/
inductive Reg where
  | a
  | x
  | y
  deriving DecidableEq, Repr

/-- The nine addressing modes and the tag `NoneAddressing` (R100 to R110). -/
inductive Mode where
  | immediate
  | zeroPage
  | zeroPageX
  | zeroPageY
  | absolute
  | absoluteX
  | absoluteY
  | indirectX
  | indirectY
  | noneAddressing
  deriving DecidableEq, Repr

/-- The operation set of R86. `tr` and `incr` are typed for any registers; which of them R86 admits is checked
by `Operation.known` (WellFormed.lean). -/
inductive Operation where
  | ld (r : Reg)
  | st (r : Reg)
  | tr (src dst : Reg)
  | incr (r : Reg)
  | incm
  | halt
  deriving DecidableEq, Repr

/-- A dispatch-table entry: "a (operation, addressing-mode, operand-width) tuple" (R82). -/
structure Entry where
  op    : Operation
  mode  : Mode
  width : Nat
  deriving DecidableEq, Repr

/-- A dispatch table as data: opcode byte and entry, one pair a row (R82). -/
abbrev Table := List (Byte × Entry)

/-- The parameter `DT` (R4): one of the two named tables (R84, R85), or a table supplied by the user of the
model (R82; spec/93_implementation_defined.md U9). -/
inductive TableChoice where
  | base
  | ext
  | supplied (rows : Table)
  deriving DecidableEq, Repr

/-- An addressing form that names a memory location, with its operand bytes (R102 to R109). -/
inductive MemOperand where
  | zeroPage  (d8 : Byte)
  | zeroPageX (d8 : Byte)
  | zeroPageY (d8 : Byte)
  | absolute  (a16 : Word)
  | absoluteX (a16 : Word)
  | absoluteY (a16 : Word)
  | indirectX (d8 : Byte)
  | indirectY (d8 : Byte)
  deriving DecidableEq, Repr

/-- The instructions: one constructor per row of spec/opcode_table.json (the 42 entries of `DT_EXT`, R85). -/
inductive Instr where
  -- LDA, spec/41_load.md R122 to R129
  | ldaImm  (d8 : Byte)
  | ldaZp   (d8 : Byte)
  | ldaZpX  (d8 : Byte)
  | ldaAbs  (a16 : Word)
  | ldaAbsX (a16 : Word)
  | ldaAbsY (a16 : Word)
  | ldaIndX (d8 : Byte)
  | ldaIndY (d8 : Byte)
  -- LDX, R131 to R135
  | ldxImm  (d8 : Byte)
  | ldxZp   (d8 : Byte)
  | ldxZpY  (d8 : Byte)
  | ldxAbs  (a16 : Word)
  | ldxAbsY (a16 : Word)
  -- LDY, R137 to R141
  | ldyImm  (d8 : Byte)
  | ldyZp   (d8 : Byte)
  | ldyZpX  (d8 : Byte)
  | ldyAbs  (a16 : Word)
  | ldyAbsX (a16 : Word)
  -- STA, spec/42_store.md R152 to R158
  | staZp   (d8 : Byte)
  | staZpX  (d8 : Byte)
  | staAbs  (a16 : Word)
  | staAbsX (a16 : Word)
  | staAbsY (a16 : Word)
  | staIndX (d8 : Byte)
  | staIndY (d8 : Byte)
  -- STX, R160 to R162
  | stxZp   (d8 : Byte)
  | stxZpY  (d8 : Byte)
  | stxAbs  (a16 : Word)
  -- STY, R164 to R166
  | styZp   (d8 : Byte)
  | styZpX  (d8 : Byte)
  | styAbs  (a16 : Word)
  -- transfers, spec/43_transfer.md R171 to R174
  | tax
  | tay
  | txa
  | tya
  -- increments, spec/44_increment.md R181, R182, R184 to R187
  | inx
  | iny
  | incZp   (d8 : Byte)
  | incZpX  (d8 : Byte)
  | incAbs  (a16 : Word)
  | incAbsX (a16 : Word)
  -- the halt opcode, spec/45_control_sequencer.md R202
  | brk
  deriving DecidableEq, Repr

/-- What a decoded opcode byte still needs to become an instruction: nothing (format F1), one operand byte (F2)
or a little-endian operand word (F3), R80. -/
inductive Shape where
  | f1 (i : Instr)
  | f2 (mk : Byte → Instr)
  | f3 (mk : Word → Instr)

/-- Why the decoder gives no instruction. -/
inductive Reject where
  /-- There is no byte to decode. -/
  | noBytes
  /-- The opcode byte has no entry in the table (R87). -/
  | unimplementedOpcode (opcode : Byte)
  /-- The entry is of a user-supplied table and pairs an operation, a mode and a width that no row of
  spec/opcode_table.json stands for (well formed or not); the sequencer runs or refuses it without an `Instr`. -/
  | noTableRow (opcode : Byte)
  /-- Fewer operand bytes are given than the entry's width. -/
  | operandMissing (opcode : Byte)
  deriving DecidableEq, Repr

/-- The decoder's answer: an instruction and the bytes after it, or a named rejection. -/
inductive Decoded where
  | instr (i : Instr) (rest : List Byte)
  | reject (why : Reject)
  deriving DecidableEq, Repr

end Sys2Proof
end

