-- ==== Sys2Proof/Decode.lean ====
section
/-! DEFINITION. Encoding: the operand widths (R111), the dispatch tables `DT_BASE` and `DT_EXT` (R84, R85), the
decoder, total on any bytes (R81, R197), and after it the encoder (R80, R85). Byte-order helpers (R44). -/

namespace Sys2Proof

/-- `zext_16` (spec/00_scope.md section 5). -/
def zext16 (b : Byte) : Word := b.setWidth 16

/-- `{hi, lo}`, "`word = (high_byte << 8) | low_byte`" (R44). -/
def assemble (hi lo : Byte) : Word := (zext16 hi <<< 8) ||| zext16 lo

/-- `w[7:0]` (spec/00_scope.md section 5). -/
def lowByte (w : Word) : Byte := w.extractLsb' 0 8

/-- `w[15:8]` (spec/00_scope.md section 5). -/
def highByte (w : Word) : Byte := w.extractLsb' 8 8

/-- The operand width of each mode (R111). -/
def Mode.width : Mode → Nat
  | .noneAddressing => 0
  | .immediate => 1
  | .zeroPage => 1
  | .zeroPageX => 1
  | .zeroPageY => 1
  | .indirectX => 1
  | .indirectY => 1
  | .absolute => 2
  | .absoluteX => 2
  | .absoluteY => 2

/-! ## The dispatch tables -/

/-- `DT_BASE`, the five entries the document evidences (R84). -/
def dtBase : Table :=
  [ (0xA9, ⟨.ld .a, .immediate, 1⟩),
    (0xA5, ⟨.ld .a, .zeroPage, 1⟩),
    (0xAA, ⟨.tr .a .x, .noneAddressing, 0⟩),
    (0xE8, ⟨.incr .x, .noneAddressing, 0⟩),
    (0x00, ⟨.halt, .noneAddressing, 0⟩) ]

/-- `DT_EXT` (R85): the load rows. -/
def dtLoads : Table :=
  [ (0xA0, ⟨.ld .y, .immediate, 1⟩),
    (0xA1, ⟨.ld .a, .indirectX, 1⟩),
    (0xA2, ⟨.ld .x, .immediate, 1⟩),
    (0xA4, ⟨.ld .y, .zeroPage, 1⟩),
    (0xA5, ⟨.ld .a, .zeroPage, 1⟩),
    (0xA6, ⟨.ld .x, .zeroPage, 1⟩),
    (0xA9, ⟨.ld .a, .immediate, 1⟩),
    (0xAC, ⟨.ld .y, .absolute, 2⟩),
    (0xAD, ⟨.ld .a, .absolute, 2⟩),
    (0xAE, ⟨.ld .x, .absolute, 2⟩),
    (0xB1, ⟨.ld .a, .indirectY, 1⟩),
    (0xB4, ⟨.ld .y, .zeroPageX, 1⟩),
    (0xB5, ⟨.ld .a, .zeroPageX, 1⟩),
    (0xB6, ⟨.ld .x, .zeroPageY, 1⟩),
    (0xB9, ⟨.ld .a, .absoluteY, 2⟩),
    (0xBC, ⟨.ld .y, .absoluteX, 2⟩),
    (0xBD, ⟨.ld .a, .absoluteX, 2⟩),
    (0xBE, ⟨.ld .x, .absoluteY, 2⟩) ]

/-- `DT_EXT` (R85): the store rows. -/
def dtStores : Table :=
  [ (0x81, ⟨.st .a, .indirectX, 1⟩),
    (0x84, ⟨.st .y, .zeroPage, 1⟩),
    (0x85, ⟨.st .a, .zeroPage, 1⟩),
    (0x86, ⟨.st .x, .zeroPage, 1⟩),
    (0x8C, ⟨.st .y, .absolute, 2⟩),
    (0x8D, ⟨.st .a, .absolute, 2⟩),
    (0x8E, ⟨.st .x, .absolute, 2⟩),
    (0x91, ⟨.st .a, .indirectY, 1⟩),
    (0x94, ⟨.st .y, .zeroPageX, 1⟩),
    (0x95, ⟨.st .a, .zeroPageX, 1⟩),
    (0x96, ⟨.st .x, .zeroPageY, 1⟩),
    (0x99, ⟨.st .a, .absoluteY, 2⟩),
    (0x9D, ⟨.st .a, .absoluteX, 2⟩) ]

/-- `DT_EXT` (R85): the transfer rows. -/
def dtTransfers : Table :=
  [ (0x8A, ⟨.tr .x .a, .noneAddressing, 0⟩),
    (0x98, ⟨.tr .y .a, .noneAddressing, 0⟩),
    (0xA8, ⟨.tr .a .y, .noneAddressing, 0⟩),
    (0xAA, ⟨.tr .a .x, .noneAddressing, 0⟩) ]

/-- `DT_EXT` (R85): the increment rows. -/
def dtIncrements : Table :=
  [ (0xC8, ⟨.incr .y, .noneAddressing, 0⟩),
    (0xE6, ⟨.incm, .zeroPage, 1⟩),
    (0xE8, ⟨.incr .x, .noneAddressing, 0⟩),
    (0xEE, ⟨.incm, .absolute, 2⟩),
    (0xF6, ⟨.incm, .zeroPageX, 1⟩),
    (0xFE, ⟨.incm, .absoluteX, 2⟩) ]

/-- `DT_EXT` (R85): the halt opcode. -/
def dtHalt : Table :=
  [ (0x00, ⟨.halt, .noneAddressing, 0⟩) ]

/-- `DT_EXT`, the table this hardware takes: 42 entries (R85). -/
def dtExt : Table := dtLoads ++ (dtStores ++ (dtTransfers ++ (dtIncrements ++ dtHalt)))

/-- The entry of an opcode byte; a table is a partial map, and the first row of a byte is its entry (R82). -/
def Table.find : Table → Byte → Option Entry
  | [], _ => none
  | (k, e) :: t, op => if k = op then some e else Table.find t op

/-- The rows a choice of the parameter `DT` stands for. -/
def TableChoice.rows : TableChoice → Table
  | .base => dtBase
  | .ext => dtExt
  | .supplied rows => rows

/-- `DT[opcode]`, `none` where the table has no entry (R197). -/
def TableChoice.find (t : TableChoice) (op : Byte) : Option Entry := Table.find t.rows op

/-! ## The decoder -/

/-- The row of spec/opcode_table.json that an operation and a mode stand for, if there is one. -/
def shapeOf : Operation → Mode → Option Shape
  | .ld .y, .immediate => some (.f2 .ldyImm)
  | .ld .a, .indirectX => some (.f2 .ldaIndX)
  | .ld .x, .immediate => some (.f2 .ldxImm)
  | .ld .y, .zeroPage => some (.f2 .ldyZp)
  | .ld .a, .zeroPage => some (.f2 .ldaZp)
  | .ld .x, .zeroPage => some (.f2 .ldxZp)
  | .ld .a, .immediate => some (.f2 .ldaImm)
  | .ld .y, .absolute => some (.f3 .ldyAbs)
  | .ld .a, .absolute => some (.f3 .ldaAbs)
  | .ld .x, .absolute => some (.f3 .ldxAbs)
  | .ld .a, .indirectY => some (.f2 .ldaIndY)
  | .ld .y, .zeroPageX => some (.f2 .ldyZpX)
  | .ld .a, .zeroPageX => some (.f2 .ldaZpX)
  | .ld .x, .zeroPageY => some (.f2 .ldxZpY)
  | .ld .a, .absoluteY => some (.f3 .ldaAbsY)
  | .ld .y, .absoluteX => some (.f3 .ldyAbsX)
  | .ld .a, .absoluteX => some (.f3 .ldaAbsX)
  | .ld .x, .absoluteY => some (.f3 .ldxAbsY)
  | .st .a, .indirectX => some (.f2 .staIndX)
  | .st .y, .zeroPage => some (.f2 .styZp)
  | .st .a, .zeroPage => some (.f2 .staZp)
  | .st .x, .zeroPage => some (.f2 .stxZp)
  | .st .y, .absolute => some (.f3 .styAbs)
  | .st .a, .absolute => some (.f3 .staAbs)
  | .st .x, .absolute => some (.f3 .stxAbs)
  | .st .a, .indirectY => some (.f2 .staIndY)
  | .st .y, .zeroPageX => some (.f2 .styZpX)
  | .st .a, .zeroPageX => some (.f2 .staZpX)
  | .st .x, .zeroPageY => some (.f2 .stxZpY)
  | .st .a, .absoluteY => some (.f3 .staAbsY)
  | .st .a, .absoluteX => some (.f3 .staAbsX)
  | .tr .x .a, .noneAddressing => some (.f1 .txa)
  | .tr .y .a, .noneAddressing => some (.f1 .tya)
  | .tr .a .y, .noneAddressing => some (.f1 .tay)
  | .tr .a .x, .noneAddressing => some (.f1 .tax)
  | .incr .y, .noneAddressing => some (.f1 .iny)
  | .incm, .zeroPage => some (.f2 .incZp)
  | .incr .x, .noneAddressing => some (.f1 .inx)
  | .incm, .absolute => some (.f3 .incAbs)
  | .incm, .zeroPageX => some (.f2 .incZpX)
  | .incm, .absoluteX => some (.f3 .incAbsX)
  | .halt, .noneAddressing => some (.f1 .brk)
  | _, _ => none

/-- The instruction form of a table entry; an entry whose width is not its mode's stands for none (R82 (a)). -/
def Entry.shape (e : Entry) : Option Shape :=
  if e.width = e.mode.width then shapeOf e.op e.mode else none

/-- Decoding under a given dispatch table: look the opcode byte up, then take the operand bytes, low byte first
(R81, R83, R197). -/
def decodeWith (t : TableChoice) : List Byte → Decoded
  | [] => .reject .noBytes
  | op :: rest =>
    match t.find op with
    | none => .reject (.unimplementedOpcode op)
    | some e =>
      match e.shape with
      | none => .reject (.noTableRow op)
      | some (.f1 i) => .instr i rest
      | some (.f2 mk) =>
        match rest with
        | d8 :: rest' => .instr (mk d8) rest'
        | [] => .reject (.operandMissing op)
      | some (.f3 mk) =>
        match rest with
        | lo :: hi :: rest' => .instr (mk (assemble hi lo)) rest'
        | _ => .reject (.operandMissing op)

/-- The decoder of this hardware, whose table is `DT_EXT` (R82, R85). -/
def decode (bytes : List Byte) : Decoded := decodeWith .ext bytes

/-- The bytes of an instruction given as a number whose bit 0 is bit 0 of the first byte: `nbits` bits of `w`, zero
above them, as the three bytes of the longest instruction (R80), first byte first. -/
def tableBytes (nbits w : Nat) : List Byte :=
  let v := w % 2 ^ nbits
  [BitVec.ofNat 8 v, BitVec.ofNat 8 (v / 256), BitVec.ofNat 8 (v / 65536)]

/-- The instruction the decoder reads from an instruction numbered as spec/opcode_table.json numbers it. -/
def decodeTableWord (nbits w : Nat) : Option Instr :=
  match decode (tableBytes nbits w) with
  | .instr i _ => some i
  | .reject _ => none

/-! ## The encoder -/

/-- The opcode byte of each instruction (R85 and the Encoding line of each instruction's rule). -/
def Instr.opcode : Instr → Byte
  | .ldyImm _ => 0xA0
  | .ldaIndX _ => 0xA1
  | .ldxImm _ => 0xA2
  | .ldyZp _ => 0xA4
  | .ldaZp _ => 0xA5
  | .ldxZp _ => 0xA6
  | .ldaImm _ => 0xA9
  | .ldyAbs _ => 0xAC
  | .ldaAbs _ => 0xAD
  | .ldxAbs _ => 0xAE
  | .ldaIndY _ => 0xB1
  | .ldyZpX _ => 0xB4
  | .ldaZpX _ => 0xB5
  | .ldxZpY _ => 0xB6
  | .ldaAbsY _ => 0xB9
  | .ldyAbsX _ => 0xBC
  | .ldaAbsX _ => 0xBD
  | .ldxAbsY _ => 0xBE
  | .staIndX _ => 0x81
  | .styZp _ => 0x84
  | .staZp _ => 0x85
  | .stxZp _ => 0x86
  | .styAbs _ => 0x8C
  | .staAbs _ => 0x8D
  | .stxAbs _ => 0x8E
  | .staIndY _ => 0x91
  | .styZpX _ => 0x94
  | .staZpX _ => 0x95
  | .stxZpY _ => 0x96
  | .staAbsY _ => 0x99
  | .staAbsX _ => 0x9D
  | .txa => 0x8A
  | .tya => 0x98
  | .tay => 0xA8
  | .tax => 0xAA
  | .iny => 0xC8
  | .incZp _ => 0xE6
  | .inx => 0xE8
  | .incAbs _ => 0xEE
  | .incZpX _ => 0xF6
  | .incAbsX _ => 0xFE
  | .brk => 0x00

/-- The operand bytes of each instruction in ascending address order, the low byte of a word first (R80). -/
def Instr.operandBytes : Instr → List Byte
  | .ldyImm d8 => [d8]
  | .ldaIndX d8 => [d8]
  | .ldxImm d8 => [d8]
  | .ldyZp d8 => [d8]
  | .ldaZp d8 => [d8]
  | .ldxZp d8 => [d8]
  | .ldaImm d8 => [d8]
  | .ldyAbs a16 => [lowByte a16, highByte a16]
  | .ldaAbs a16 => [lowByte a16, highByte a16]
  | .ldxAbs a16 => [lowByte a16, highByte a16]
  | .ldaIndY d8 => [d8]
  | .ldyZpX d8 => [d8]
  | .ldaZpX d8 => [d8]
  | .ldxZpY d8 => [d8]
  | .ldaAbsY a16 => [lowByte a16, highByte a16]
  | .ldyAbsX a16 => [lowByte a16, highByte a16]
  | .ldaAbsX a16 => [lowByte a16, highByte a16]
  | .ldxAbsY a16 => [lowByte a16, highByte a16]
  | .staIndX d8 => [d8]
  | .styZp d8 => [d8]
  | .staZp d8 => [d8]
  | .stxZp d8 => [d8]
  | .styAbs a16 => [lowByte a16, highByte a16]
  | .staAbs a16 => [lowByte a16, highByte a16]
  | .stxAbs a16 => [lowByte a16, highByte a16]
  | .staIndY d8 => [d8]
  | .styZpX d8 => [d8]
  | .staZpX d8 => [d8]
  | .stxZpY d8 => [d8]
  | .staAbsY a16 => [lowByte a16, highByte a16]
  | .staAbsX a16 => [lowByte a16, highByte a16]
  | .txa => []
  | .tya => []
  | .tay => []
  | .tax => []
  | .iny => []
  | .incZp d8 => [d8]
  | .inx => []
  | .incAbs a16 => [lowByte a16, highByte a16]
  | .incZpX d8 => [d8]
  | .incAbsX a16 => [lowByte a16, highByte a16]
  | .brk => []

/-- The table entry each instruction is the row of (R85). -/
def Instr.entry : Instr → Entry
  | .ldyImm _ => ⟨.ld .y, .immediate, 1⟩
  | .ldaIndX _ => ⟨.ld .a, .indirectX, 1⟩
  | .ldxImm _ => ⟨.ld .x, .immediate, 1⟩
  | .ldyZp _ => ⟨.ld .y, .zeroPage, 1⟩
  | .ldaZp _ => ⟨.ld .a, .zeroPage, 1⟩
  | .ldxZp _ => ⟨.ld .x, .zeroPage, 1⟩
  | .ldaImm _ => ⟨.ld .a, .immediate, 1⟩
  | .ldyAbs _ => ⟨.ld .y, .absolute, 2⟩
  | .ldaAbs _ => ⟨.ld .a, .absolute, 2⟩
  | .ldxAbs _ => ⟨.ld .x, .absolute, 2⟩
  | .ldaIndY _ => ⟨.ld .a, .indirectY, 1⟩
  | .ldyZpX _ => ⟨.ld .y, .zeroPageX, 1⟩
  | .ldaZpX _ => ⟨.ld .a, .zeroPageX, 1⟩
  | .ldxZpY _ => ⟨.ld .x, .zeroPageY, 1⟩
  | .ldaAbsY _ => ⟨.ld .a, .absoluteY, 2⟩
  | .ldyAbsX _ => ⟨.ld .y, .absoluteX, 2⟩
  | .ldaAbsX _ => ⟨.ld .a, .absoluteX, 2⟩
  | .ldxAbsY _ => ⟨.ld .x, .absoluteY, 2⟩
  | .staIndX _ => ⟨.st .a, .indirectX, 1⟩
  | .styZp _ => ⟨.st .y, .zeroPage, 1⟩
  | .staZp _ => ⟨.st .a, .zeroPage, 1⟩
  | .stxZp _ => ⟨.st .x, .zeroPage, 1⟩
  | .styAbs _ => ⟨.st .y, .absolute, 2⟩
  | .staAbs _ => ⟨.st .a, .absolute, 2⟩
  | .stxAbs _ => ⟨.st .x, .absolute, 2⟩
  | .staIndY _ => ⟨.st .a, .indirectY, 1⟩
  | .styZpX _ => ⟨.st .y, .zeroPageX, 1⟩
  | .staZpX _ => ⟨.st .a, .zeroPageX, 1⟩
  | .stxZpY _ => ⟨.st .x, .zeroPageY, 1⟩
  | .staAbsY _ => ⟨.st .a, .absoluteY, 2⟩
  | .staAbsX _ => ⟨.st .a, .absoluteX, 2⟩
  | .txa => ⟨.tr .x .a, .noneAddressing, 0⟩
  | .tya => ⟨.tr .y .a, .noneAddressing, 0⟩
  | .tay => ⟨.tr .a .y, .noneAddressing, 0⟩
  | .tax => ⟨.tr .a .x, .noneAddressing, 0⟩
  | .iny => ⟨.incr .y, .noneAddressing, 0⟩
  | .incZp _ => ⟨.incm, .zeroPage, 1⟩
  | .inx => ⟨.incr .x, .noneAddressing, 0⟩
  | .incAbs _ => ⟨.incm, .absolute, 2⟩
  | .incZpX _ => ⟨.incm, .zeroPageX, 1⟩
  | .incAbsX _ => ⟨.incm, .absoluteX, 2⟩
  | .brk => ⟨.halt, .noneAddressing, 0⟩

/-- The bytes of an instruction: opcode, then operand bytes (R80). -/
def encode (i : Instr) : List Byte := i.opcode :: i.operandBytes

end Sys2Proof
end

