-- ==== Sys2Proof/Config.lean ====
section
/-! DEFINITION. The parameters of the hardware (spec/00_scope.md R4): what is fixed for one machine and changed by no
instruction. They are plain data, carried in `State.cfg`, so that every statement holds for every value of them.
No value is left free by the spec (no opaque constant stands here). -/

namespace Sys2Proof

/-- A byte array as the cells that differ from `Memory.unlisted`, in rising order of index. -/
abbrev Memory := List Host.Cell

/-- What a cell that a memory does not list reads as: the default of `RAM_INIT`, `ROM_INIT` and `FLAT_INIT`,
"default all bytes 0x00" (R4, R250; log entry 5). -/
def Memory.unlisted : Byte := 0x00

/-- `MEM_IMPL` (R4): the mirrored bus (R46 to R53) or the flat array (R54). -/
inductive MemImpl where
  | bus
  | flat
  deriving DecidableEq, Repr

/-- `IO_DEVICE` (R4): `none` in this hardware; a wired device is refused (R49, U4). -/
inductive IoDevice where
  | none
  | wired
  deriving DecidableEq, Repr

/-- The open parameters of R4. `LOG` is fixed to "modelled", its default. -/
structure Config where
  memImpl  : MemImpl
  dt       : TableChoice
  ioDevice : IoDevice
  ramInit  : Memory
  romInit  : Memory
  flatInit : Memory
  deriving DecidableEq, Repr

/-- The defaults of R4: the bus, `DT_EXT`, no device, memory arrays of zeros. -/
def Config.standard : Config :=
  { memImpl := .bus, dt := .ext, ioDevice := .none, ramInit := [], romInit := [], flatInit := [] }

/-- The sizes of the three arrays (R21, R54): 2 KiB, 32 KiB, 64 KiB. -/
def ramSize : Nat := 2048
def romSize : Nat := 32768
def flatSize : Nat := 65536

end Sys2Proof
end

