-- ==== Sys2Proof/Machine/State.lean ====
section
/-! DEFINITION. The machine's state as plain data: the tuple of spec/10_state.md R24, with the configuration of R4
beside it; the ways a step can stop; and the state right after `create` and `reset` (R26). -/

namespace Sys2Proof.Machine

/-- The sequencer state (R19). -/
inductive Seq where
  | running
  | halted
  | faulted
  deriving DecidableEq, Repr

/-- The kind of an access, `R` or `W` (R49). -/
inductive AccessKind where
  | read
  | write
  deriving DecidableEq, Repr

/-- A fatal condition with the values it records (R221, R222, R224): what the fault latch holds. -/
inductive Fatal where
  | unimplementedOpcode (opcode : Byte) (pc : Word)
  | invalidAddressingMode (opcode : Byte) (pc : Word)
  | unimplementedDevice (kind : AccessKind) (addr masked : Word)
  deriving DecidableEq, Repr

/-- An event of the diagnostic log (R23). -/
inductive LogEvent where
  | unmappedRead (addr : Word)
  | unmappedWrite (addr : Word) (value : Byte)
  deriving DecidableEq, Repr

/-- A backing cell (R21, R54): an array and an index into it. -/
inductive CellRef where
  | ram (i : Nat)
  | rom (i : Nat)
  | flat (i : Nat)
  deriving DecidableEq, Repr

/-- What the address decoder makes of an address (R46): a backing cell, a register of the I/O window (named by its
masked address), or nothing. -/
inductive Target where
  | cell (c : CellRef)
  | ioWindow (masked : Word)
  | unmapped
  deriving DecidableEq, Repr

/-- The complete state (R24). Under `MEM_IMPL = Bus` the storage is `ram` and `rom`, under `Flat` it is `flat`; the
arrays of the implementation that is not attached stay empty. -/
structure State where
  /-- `A` (R10). -/
  a     : Byte
  /-- `X` (R10). -/
  x     : Byte
  /-- `Y` (R10). -/
  y     : Byte
  /-- `P`, the status register, with the bit positions of R16. -/
  p     : Byte
  /-- `PC` (R12). -/
  pc    : Word
  /-- `SEQ` (R19). -/
  seq   : Seq
  /-- `FAULT`, the fault latch (R20). -/
  fault : Option Fatal
  /-- `RAM[0 .. 2047]` (R21). -/
  ram   : Memory
  /-- `ROM[0 .. 32767]`, the store behind the program ROM window (R21). -/
  rom   : Memory
  /-- `FLAT[0 .. 65535]` (R21, R54). -/
  flat  : Memory
  /-- `LOG`, oldest event first (R23; log entry 9). -/
  log   : List LogEvent
  /-- The parameters of R4: configuration, written by nothing after `create` (log entry 1). -/
  cfg   : Config
  deriving DecidableEq, Repr

/-- Why a step is stuck. -/
inductive Fault where
  /-- Raised by `step` when `SEQ = Halted`: "A state with `SEQ = Halted` or `SEQ = Faulted` has no step" (R200).
  Safe: the machine does nothing until the host issues a command (log entry 3). -/
  | sequencerHalted
  /-- Raised by `step` when `SEQ = Faulted`, which is terminal (R200, R228, U5). Safe (log entry 3). -/
  | sequencerFaulted
  deriving DecidableEq, Repr

/-- Why the model gives no meaning. -/
inductive Refusal where
  /-- Raised by `exec` for an instruction that has no meaning yet (none is left). Safe. -/
  | notModelled (mnemonic : String)
  /-- Raised by an access to 0x2000 to 0x3FFF under `Bus` with a device wired: "a model must refuse it, not guess"
  (R49, U4; log entry 11). Safe. -/
  | deviceWired
  /-- Raised by the sequencer on an entry of a user-supplied table that breaks R82 in another way than R222 (U9;
  log entry 10). Safe. -/
  | malformedTableEntry
  /-- Raised by `create` for a configuration that is not well formed (R82, U4, U9, U11; log entry 1).
  Safe. -/
  | configurationNotAccepted
  /-- Raised by a host command when `SEQ = Faulted` (R254, U15; log entry 8). Safe. -/
  | commandWhenFaulted
  /-- Raised by a host command when `SEQ = Running`, where the host has no move (R256, U15; log entry 8).
  Safe. -/
  | commandWhenRunning
  /-- Raised by `load` for an image of more than 0x8000 bytes (R252, U14; log entry 8). Safe. -/
  | imageTooLong
  deriving DecidableEq, Repr

/-- The answer of a step. -/
abbrev Outcome := Host.Outcome State Fault Refusal

/-- The state `create` produces for a configuration (R250, R26): every register zero, `SEQ = Halted`, and the arrays
of the attached memory at their initial contents. -/
def State.created (c : Config) : State :=
  { a := 0x00, x := 0x00, y := 0x00, p := 0x00, pc := 0x0000, seq := .halted, fault := none,
    ram := if c.memImpl = .bus then c.ramInit else [],
    rom := if c.memImpl = .bus then c.romInit else [],
    flat := if c.memImpl = .flat then c.flatInit else [],
    log := [], cfg := c }

/-- The machine right after `create` and `reset` under the default parameters (R26): the reset vector reads 0x0000
because no cell has been written (R253), and `SEQ` is `Halted` (log entry 6). -/
def State.reset : State :=
  { a := 0x00, x := 0x00, y := 0x00, p := 0x00, pc := 0x0000, seq := .halted, fault := none,
    ram := [], rom := [], flat := [], log := [], cfg := Config.standard }

end Sys2Proof.Machine
end

