-- ==== Sys2Proof/Machine/Flags.lean ====
section
/-! DEFINITION. The flags of `P` by the bit positions of spec/10_state.md R16, and the one flag-update rule, `SetZN`
(R18). The bits other than Z and N are reserved storage that nothing writes or reads (R17). -/

namespace Sys2Proof.Machine

/-- `P.N`, bit 7 (R16). -/
def flagN (p : Byte) : Bool := p.getLsbD 7
/-- `P.V`, bit 6: reserved (R16, R17). -/
def flagV (p : Byte) : Bool := p.getLsbD 6
/-- Bit 5, unnamed: reserved (R16, R17). -/
def flagUnnamed (p : Byte) : Bool := p.getLsbD 5
/-- `P.B`, bit 4: reserved (R16, R17). -/
def flagB (p : Byte) : Bool := p.getLsbD 4
/-- `P.D`, bit 3: reserved (R16, R17). -/
def flagD (p : Byte) : Bool := p.getLsbD 3
/-- `P.I`, bit 2: reserved (R16, R17). -/
def flagI (p : Byte) : Bool := p.getLsbD 2
/-- `P.Z`, bit 1 (R16). -/
def flagZ (p : Byte) : Bool := p.getLsbD 1
/-- `P.C`, bit 0: reserved (R16, R17). -/
def flagC (p : Byte) : Bool := p.getLsbD 0

/-- The status byte after `SetZN(v)`: Z is 1 iff `v == 0x00`, N is `v[7]`, "every other bit of P is unchanged" (R18). -/
def statusZN (v p : Byte) : Byte :=
  (p &&& 0x7D) ||| ((if v = 0x00 then 0x02 else 0x00) ||| (v &&& 0x80))

/-- `SetZN(v)` on the state (R18). -/
def State.setZN (s : State) (v : Byte) : State := { s with p := statusZN v s.p }

end Sys2Proof.Machine
end

