-- ==== Sys2Proof/Machine/Memory.lean ====
section
/-! DEFINITION. Reading and writing one cell of a byte array held in canonical form (WellFormed.lean `Memory.wf`). -/

namespace Sys2Proof

/-- The byte at an index: the listed one, or what an unlisted cell reads as. -/
def Memory.read : Memory → Nat → Byte
  | [], _ => Memory.unlisted
  | (j, b) :: t, k => if j = k then b else Memory.read t k

/-- Write a byte at an index, keeping the canonical form: a cell that gets the value of an unlisted cell is dropped. -/
def Memory.write : Memory → Nat → Byte → Memory
  | [], k, v => if v = Memory.unlisted then [] else [(k, v)]
  | (j, b) :: t, k, v =>
    if k < j then (if v = Memory.unlisted then (j, b) :: t else (k, v) :: (j, b) :: t)
    else if k = j then (if v = Memory.unlisted then t else (k, v) :: t)
    else (j, b) :: Memory.write t k v

end Sys2Proof
end

