-- ==== Sys2Proof/Machine/Ops.lean ====
section
/-! DEFINITION. The named operations: registers and the program counter (spec/10_state.md R10 to R14), the address
decoder and the memory capability (spec/20_memory.md R41 to R54), and the one fatal-condition entry
(spec/60_exceptions.md R225). There is no return from a fatal condition (R228), so no operation stands beside it. -/

namespace Sys2Proof.Machine

/-! ## Results of an access -/

/-- The result of an operation that may end the step: a value and the state reached, or the step's outcome. -/
inductive Res (α : Type) where
  | ok (v : α) (s : State)
  | stop (o : Outcome)

/-- Go on with a further operation, unless the step has ended. -/
def Res.bind {α β : Type} (r : Res α) (k : α → State → Res β) : Res β :=
  match r with
  | .ok v s => k v s
  | .stop o => .stop o

/-- End the step after an operation, unless it has ended already. -/
def Res.finish {α : Type} (r : Res α) (k : α → State → Outcome) : Outcome :=
  match r with
  | .ok v s => k v s
  | .stop o => o

/-- The value read, where the operation gives one. -/
def Res.value {α : Type} : Res α → Option α
  | .ok v _ => some v
  | .stop _ => none

/-! ## Registers and the program counter -/

/-- Read a general register (R10). -/
def State.reg (s : State) : Reg → Byte
  | .a => s.a
  | .x => s.x
  | .y => s.y

/-- Write a general register (R10): no register is hardwired and none aliases another. -/
def State.setReg (s : State) (r : Reg) (v : Byte) : State :=
  match r with
  | .a => { s with a := v }
  | .x => { s with x := v }
  | .y => { s with y := v }

/-- `PC <- PC +_16 n`, modulo 65536 (R13, R14). -/
def State.advance (s : State) (n : Nat) : State := { s with pc := s.pc + BitVec.ofNat 16 n }

/-! ## Fatal conditions and the log -/

/-- `raise Fatal.<Name>(info)`: "FAULT <- (<Name>, info); SEQ <- Faulted", and nothing else changes (R225;
log entry 7). -/
def State.raise (s : State) (f : Fatal) : State := { s with fault := some f, seq := .faulted }

/-- `log <Event>`: append to the log (R23). -/
def State.logged (s : State) (e : LogEvent) : State := { s with log := s.log ++ [e] }

/-! ## The memory capability -/

/-- The address decoder: the region table of R46 with the masks of R47, R49 and R50 under `Bus`; under `Flat` every
address is its own cell (R54). -/
def decodeAddress (m : MemImpl) (addr : Word) : Target :=
  match m with
  | .flat => .cell (.flat addr.toNat)
  | .bus =>
    if addr.toNat < 0x2000 then .cell (.ram (addr &&& 0x07FF).toNat)
    else if addr.toNat < 0x4000 then .ioWindow (addr &&& 0x2007)
    else if addr.toNat < 0x8000 then .unmapped
    else .cell (.rom (addr - 0x8000).toNat)

/-- What the decoder of this state's memory makes of an address. -/
def State.target (s : State) (addr : Word) : Target := decodeAddress s.cfg.memImpl addr

/-- The byte in a backing cell (R21). -/
def State.readCell (s : State) : CellRef → Byte
  | .ram i => Memory.read s.ram i
  | .rom i => Memory.read s.rom i
  | .flat i => Memory.read s.flat i

/-- Write a backing cell (R21). -/
def State.writeCell (s : State) (c : CellRef) (v : Byte) : State :=
  match c with
  | .ram i => { s with ram := Memory.write s.ram i v }
  | .rom i => { s with rom := Memory.write s.rom i v }
  | .flat i => { s with flat := Memory.write s.flat i v }

/-- An access to the I/O register window: fatal with no device wired, and refused with one (R49, R224;
log entry 11). -/
def ioAccess (kind : AccessKind) (addr masked : Word) (s : State) : Outcome :=
  match s.cfg.ioDevice with
  | .none => .next (s.raise (.unimplementedDevice kind addr masked))
  | .wired => .refused .deviceWired

/-- `MemRead(addr, 1)` (R41): a cell's byte (R47, R50, R54), 0x00 and a log entry in the unmapped range (R52), fatal
in the I/O window (R49). -/
def memRead (addr : Word) (s : State) : Res Byte :=
  match s.target addr with
  | .cell c => .ok (s.readCell c) s
  | .ioWindow masked => .stop (ioAccess .read addr masked s)
  | .unmapped => .ok 0x00 (s.logged (.unmappedRead addr))

/-- `MemWrite(addr, 1, v)` (R41): the cell is written (R47, R51, R54), in the unmapped range the write is logged and
discarded (R53), and in the I/O window it is fatal (R49). -/
def memWrite (addr : Word) (v : Byte) (s : State) : Res Unit :=
  match s.target addr with
  | .cell c => .ok () (s.writeCell c v)
  | .ioWindow masked => .stop (ioAccess .write addr masked s)
  | .unmapped => .ok () (s.logged (.unmappedWrite addr v))

/-- `read_word(addr)`: the low byte at `addr`, read first, the high byte at `addr +_16 1` (R42, R45). -/
def readWord (addr : Word) (s : State) : Res Word :=
  (memRead addr s).bind fun lo s1 =>
  (memRead (addr + 1) s1).bind fun hi s2 => .ok (assemble hi lo) s2

/-- `write_word(addr, w)`: the low byte to `addr`, written first, the high byte to `addr +_16 1` (R43, R45). -/
def writeWord (addr : Word) (w : Word) (s : State) : Res Unit :=
  (memWrite addr (lowByte w) s).bind fun _ s1 => memWrite (addr + 1) (highByte w) s1

/-- Put bytes into the backing cells of consecutive addresses, without an access: addresses that have no cell are
skipped. It stands for contents placed from outside the machine (log entry 4). -/
def State.placeBytes (s : State) (addr : Word) : List Byte → State
  | [] => s
  | b :: bs =>
    State.placeBytes (match s.target addr with | .cell c => s.writeCell c b | .ioWindow _ => s | .unmapped => s)
      (addr + 1) bs

end Sys2Proof.Machine
end

