-- ==== Sys2Proof/Machine/Operands.lean ====
section
/-! DEFINITION. The addressing-mode resolver (spec/40_addressing_modes.md). `effAddr` is the effective address of an
addressing form whose operand bytes are known; `resolve` is `EA(mode)` as the spec writes it, which reads the
operand bytes at `PC` first (R100 to R110). -/

namespace Sys2Proof.Machine

/-- The operand width of an addressing form (R111). -/
def operandWidth : MemOperand → Nat
  | .zeroPage _ => 1
  | .zeroPageX _ => 1
  | .zeroPageY _ => 1
  | .absolute _ => 2
  | .absoluteX _ => 2
  | .absoluteY _ => 2
  | .indirectX _ => 1
  | .indirectY _ => 1

/-- The 16-bit pointer at a zero-page location; "the high-byte fetch also wraps within page 0" (R108, R109). -/
def readPointer (ptr : Byte) (s : State) : Res Word :=
  (memRead (zext16 ptr) s).bind fun lo s1 =>
  (memRead (zext16 (ptr + 1)) s1).bind fun hi s2 => .ok (assemble hi lo) s2

/-- The effective address of an addressing form (R102 to R109): zero-page indexing is modulo 256, absolute and
indirect indexing modulo 65536. -/
def effAddr (o : MemOperand) (s : State) : Res Word :=
  match o with
  | .zeroPage d8 => .ok (zext16 d8) s
  | .zeroPageX d8 => .ok (zext16 (d8 + s.x)) s
  | .zeroPageY d8 => .ok (zext16 (d8 + s.y)) s
  | .absolute a16 => .ok a16 s
  | .absoluteX a16 => .ok (a16 + zext16 s.x) s
  | .absoluteY a16 => .ok (a16 + zext16 s.y) s
  | .indirectX d8 => readPointer (d8 + s.x) s
  | .indirectY d8 => (readPointer d8 s).bind fun base s1 => .ok (base + zext16 s1.y) s1

/-- `EA(mode)`, evaluated with `PC` at the first operand byte (R100 to R110). -/
def resolve (opcode : Byte) (m : Mode) (s : State) : Res Word :=
  match m with
  | .immediate => .ok s.pc s
  | .zeroPage => (memRead s.pc s).bind fun d8 s1 => effAddr (.zeroPage d8) s1
  | .zeroPageX => (memRead s.pc s).bind fun d8 s1 => effAddr (.zeroPageX d8) s1
  | .zeroPageY => (memRead s.pc s).bind fun d8 s1 => effAddr (.zeroPageY d8) s1
  | .absolute => (readWord s.pc s).bind fun a16 s1 => effAddr (.absolute a16) s1
  | .absoluteX => (readWord s.pc s).bind fun a16 s1 => effAddr (.absoluteX a16) s1
  | .absoluteY => (readWord s.pc s).bind fun a16 s1 => effAddr (.absoluteY a16) s1
  | .indirectX => (memRead s.pc s).bind fun d8 s1 => effAddr (.indirectX d8) s1
  | .indirectY => (memRead s.pc s).bind fun d8 s1 => effAddr (.indirectY d8) s1
  | .noneAddressing => .stop (.next (s.raise (.invalidAddressingMode opcode s.pc)))

end Sys2Proof.Machine
end

