-- ==== Sys2Proof/Machine/Control.lean ====
section
/-! DEFINITION. The halt instruction BRK (spec/45_control_sequencer.md R202). -/

namespace Sys2Proof.Machine

/-- The operation `HALT`: "SEQ <- Halted", then the operand width `w`; no register, flag or cell changes (R202). -/
def halt (w : Nat) (s : State) : Outcome := .next (State.advance { s with seq := .halted } w)

/-- `BRK`, the halt opcode (R202). -/
def execBrk (s : State) : Outcome := halt 0 s

end Sys2Proof.Machine
end

