-- ==== Sys2Proof/Machine/Increment.lean ====
section
/-! DEFINITION. The increments INX, INY, INC (spec/44_increment.md): modulo 256, with no carry and no overflow indication. -/

namespace Sys2Proof.Machine

/-- The operation `INCR(r)`: "v <- r +_8 1; r <- v; SetZN(v)", then the operand width `w` (R180). -/
def incReg (r : Reg) (w : Nat) (s : State) : Outcome :=
  .next (((s.setReg r (s.reg r + 1)).setZN (s.reg r + 1)).advance w)

/-- The operation `INCM` at a resolved address: one read, one write of the value plus 1 to the same address, then
`SetZN` of the value written (R183). -/
def incMem (ea : Res Word) (w : Nat) : Outcome :=
  ea.finish fun addr s1 =>
    (memRead addr s1).finish fun m s2 =>
      (memWrite addr (m + 1) s2).finish fun _ s3 => .next ((s3.setZN (m + 1)).advance w)

/-- `INCM` in an addressing form (R183). -/
def incMemAt (o : MemOperand) (s : State) : Outcome := incMem (effAddr o s) (operandWidth o)

/-- `INX` (R181). -/
def execInx (s : State) : Outcome := incReg .x 0 s

/-- `INY` (R182). -/
def execIny (s : State) : Outcome := incReg .y 0 s

/-- `INC $nn` (R184). -/
def execIncZp (d8 : Byte) (s : State) : Outcome := incMemAt (.zeroPage d8) s

/-- `INC $nn,X` (R185). -/
def execIncZpX (d8 : Byte) (s : State) : Outcome := incMemAt (.zeroPageX d8) s

/-- `INC $nnnn` (R186). -/
def execIncAbs (a16 : Word) (s : State) : Outcome := incMemAt (.absolute a16) s

/-- `INC $nnnn,X` (R187). -/
def execIncAbsX (a16 : Word) (s : State) : Outcome := incMemAt (.absoluteX a16) s

end Sys2Proof.Machine
end

