-- ==== Sys2Proof/Machine/Load.lean ====
section
/-! DEFINITION. The load instructions LDA, LDX, LDY (spec/41_load.md). A meaning runs after the opcode fetch, with `PC` at the
first operand byte (R5, R198), and the operand bytes are those the sequencer has read (log entry 2). -/

namespace Sys2Proof.Machine

/-- The effect of a load of `v` with operand width `w`: "r <- v; SetZN(v); PC <- PC +_16 w" (R120). -/
def State.loaded (s : State) (r : Reg) (v : Byte) (w : Nat) : State := ((s.setReg r v).setZN v).advance w

/-- The operation `LD(r)` at a resolved address (R120). -/
def load (r : Reg) (ea : Res Word) (w : Nat) : Outcome :=
  ea.finish fun addr s1 => (memRead addr s1).finish fun v s2 => .next (s2.loaded r v w)

/-- `LD(r)` from memory, in an addressing form (R120). -/
def loadMem (r : Reg) (o : MemOperand) (s : State) : Outcome := load r (effAddr o s) (operandWidth o)

/-- `LD(r)` in mode Immediate: the operand byte is the datum (R83, R101, R120). -/
def loadImm (r : Reg) (d8 : Byte) (s : State) : Outcome := .next (s.loaded r d8 1)

/-- `LDA #$nn` (R122). -/
def execLdaImm (d8 : Byte) (s : State) : Outcome := loadImm .a d8 s

/-- `LDA $nn` (R123). -/
def execLdaZp (d8 : Byte) (s : State) : Outcome := loadMem .a (.zeroPage d8) s

/-- `LDA $nn,X` (R124). -/
def execLdaZpX (d8 : Byte) (s : State) : Outcome := loadMem .a (.zeroPageX d8) s

/-- `LDA $nnnn` (R125). -/
def execLdaAbs (a16 : Word) (s : State) : Outcome := loadMem .a (.absolute a16) s

/-- `LDA $nnnn,X` (R126). -/
def execLdaAbsX (a16 : Word) (s : State) : Outcome := loadMem .a (.absoluteX a16) s

/-- `LDA $nnnn,Y` (R127). -/
def execLdaAbsY (a16 : Word) (s : State) : Outcome := loadMem .a (.absoluteY a16) s

/-- `LDA ($nn,X)` (R128). -/
def execLdaIndX (d8 : Byte) (s : State) : Outcome := loadMem .a (.indirectX d8) s

/-- `LDA ($nn),Y` (R129). -/
def execLdaIndY (d8 : Byte) (s : State) : Outcome := loadMem .a (.indirectY d8) s

/-- `LDX #$nn` (R131). -/
def execLdxImm (d8 : Byte) (s : State) : Outcome := loadImm .x d8 s

/-- `LDX $nn` (R132). -/
def execLdxZp (d8 : Byte) (s : State) : Outcome := loadMem .x (.zeroPage d8) s

/-- `LDX $nn,Y` (R133). -/
def execLdxZpY (d8 : Byte) (s : State) : Outcome := loadMem .x (.zeroPageY d8) s

/-- `LDX $nnnn` (R134). -/
def execLdxAbs (a16 : Word) (s : State) : Outcome := loadMem .x (.absolute a16) s

/-- `LDX $nnnn,Y` (R135). -/
def execLdxAbsY (a16 : Word) (s : State) : Outcome := loadMem .x (.absoluteY a16) s

/-- `LDY #$nn` (R137). -/
def execLdyImm (d8 : Byte) (s : State) : Outcome := loadImm .y d8 s

/-- `LDY $nn` (R138). -/
def execLdyZp (d8 : Byte) (s : State) : Outcome := loadMem .y (.zeroPage d8) s

/-- `LDY $nn,X` (R139). -/
def execLdyZpX (d8 : Byte) (s : State) : Outcome := loadMem .y (.zeroPageX d8) s

/-- `LDY $nnnn` (R140). -/
def execLdyAbs (a16 : Word) (s : State) : Outcome := loadMem .y (.absolute a16) s

/-- `LDY $nnnn,X` (R141). -/
def execLdyAbsX (a16 : Word) (s : State) : Outcome := loadMem .y (.absoluteX a16) s

end Sys2Proof.Machine
end

