-- ==== Sys2Proof/Machine/Store.lean ====
section
/-! DEFINITION. The store instructions STA, STX, STY (spec/42_store.md). A store writes no register and no flag. -/

namespace Sys2Proof.Machine

/-- The operation `ST(r)` at a resolved address: "MemWrite(ea, 1, r); PC <- PC +_16 w" (R150). -/
def store (r : Reg) (ea : Res Word) (w : Nat) : Outcome :=
  ea.finish fun addr s1 => (memWrite addr (s1.reg r) s1).finish fun _ s2 => .next (s2.advance w)

/-- `ST(r)` in an addressing form (R150). -/
def storeMem (r : Reg) (o : MemOperand) (s : State) : Outcome := store r (effAddr o s) (operandWidth o)

/-- `STA $nn` (R152). -/
def execStaZp (d8 : Byte) (s : State) : Outcome := storeMem .a (.zeroPage d8) s

/-- `STA $nn,X` (R153). -/
def execStaZpX (d8 : Byte) (s : State) : Outcome := storeMem .a (.zeroPageX d8) s

/-- `STA $nnnn` (R154). -/
def execStaAbs (a16 : Word) (s : State) : Outcome := storeMem .a (.absolute a16) s

/-- `STA $nnnn,X` (R155). -/
def execStaAbsX (a16 : Word) (s : State) : Outcome := storeMem .a (.absoluteX a16) s

/-- `STA $nnnn,Y` (R156). -/
def execStaAbsY (a16 : Word) (s : State) : Outcome := storeMem .a (.absoluteY a16) s

/-- `STA ($nn,X)` (R157). -/
def execStaIndX (d8 : Byte) (s : State) : Outcome := storeMem .a (.indirectX d8) s

/-- `STA ($nn),Y` (R158). -/
def execStaIndY (d8 : Byte) (s : State) : Outcome := storeMem .a (.indirectY d8) s

/-- `STX $nn` (R160). -/
def execStxZp (d8 : Byte) (s : State) : Outcome := storeMem .x (.zeroPage d8) s

/-- `STX $nn,Y` (R161). -/
def execStxZpY (d8 : Byte) (s : State) : Outcome := storeMem .x (.zeroPageY d8) s

/-- `STX $nnnn` (R162). -/
def execStxAbs (a16 : Word) (s : State) : Outcome := storeMem .x (.absolute a16) s

/-- `STY $nn` (R164). -/
def execStyZp (d8 : Byte) (s : State) : Outcome := storeMem .y (.zeroPage d8) s

/-- `STY $nn,X` (R165). -/
def execStyZpX (d8 : Byte) (s : State) : Outcome := storeMem .y (.zeroPageX d8) s

/-- `STY $nnnn` (R166). -/
def execStyAbs (a16 : Word) (s : State) : Outcome := storeMem .y (.absolute a16) s

end Sys2Proof.Machine
end

