-- ==== Sys2Proof/Machine/Transfer.lean ====
section
/-! DEFINITION. The register transfers TAX, TAY, TXA, TYA (spec/43_transfer.md). -/

namespace Sys2Proof.Machine

/-- The operation `TR(src, dst)`: "v <- s; d <- v; SetZN(v)", then the operand width `w` (R170). -/
def transfer (src dst : Reg) (w : Nat) (s : State) : Outcome :=
  .next (((s.setReg dst (s.reg src)).setZN (s.reg src)).advance w)

/-- `TAX` (R171). -/
def execTax (s : State) : Outcome := transfer .a .x 0 s

/-- `TAY` (R172). -/
def execTay (s : State) : Outcome := transfer .a .y 0 s

/-- `TXA` (R173). -/
def execTxa (s : State) : Outcome := transfer .x .a 0 s

/-- `TYA` (R174). -/
def execTya (s : State) : Outcome := transfer .y .a 0 s

end Sys2Proof.Machine
end

