-- ==== Sys2Proof/Machine/Dispatch.lean ====
section
/-! DEFINITION. The meaning of every instruction: one arm per constructor of `Instr`. -/

namespace Sys2Proof.Machine

def exec (i : Instr) (s : State) : Host.Outcome State Fault Refusal :=
  match i with
  | .ldaImm d8 => Sys2Proof.Machine.execLdaImm d8 s
  | .ldaZp d8 => Sys2Proof.Machine.execLdaZp d8 s
  | .ldaZpX d8 => Sys2Proof.Machine.execLdaZpX d8 s
  | .ldaAbs a16 => Sys2Proof.Machine.execLdaAbs a16 s
  | .ldaAbsX a16 => Sys2Proof.Machine.execLdaAbsX a16 s
  | .ldaAbsY a16 => Sys2Proof.Machine.execLdaAbsY a16 s
  | .ldaIndX d8 => Sys2Proof.Machine.execLdaIndX d8 s
  | .ldaIndY d8 => Sys2Proof.Machine.execLdaIndY d8 s
  | .ldxImm d8 => Sys2Proof.Machine.execLdxImm d8 s
  | .ldxZp d8 => Sys2Proof.Machine.execLdxZp d8 s
  | .ldxZpY d8 => Sys2Proof.Machine.execLdxZpY d8 s
  | .ldxAbs a16 => Sys2Proof.Machine.execLdxAbs a16 s
  | .ldxAbsY a16 => Sys2Proof.Machine.execLdxAbsY a16 s
  | .ldyImm d8 => Sys2Proof.Machine.execLdyImm d8 s
  | .ldyZp d8 => Sys2Proof.Machine.execLdyZp d8 s
  | .ldyZpX d8 => Sys2Proof.Machine.execLdyZpX d8 s
  | .ldyAbs a16 => Sys2Proof.Machine.execLdyAbs a16 s
  | .ldyAbsX a16 => Sys2Proof.Machine.execLdyAbsX a16 s
  | .staZp d8 => Sys2Proof.Machine.execStaZp d8 s
  | .staZpX d8 => Sys2Proof.Machine.execStaZpX d8 s
  | .staAbs a16 => Sys2Proof.Machine.execStaAbs a16 s
  | .staAbsX a16 => Sys2Proof.Machine.execStaAbsX a16 s
  | .staAbsY a16 => Sys2Proof.Machine.execStaAbsY a16 s
  | .staIndX d8 => Sys2Proof.Machine.execStaIndX d8 s
  | .staIndY d8 => Sys2Proof.Machine.execStaIndY d8 s
  | .stxZp d8 => Sys2Proof.Machine.execStxZp d8 s
  | .stxZpY d8 => Sys2Proof.Machine.execStxZpY d8 s
  | .stxAbs a16 => Sys2Proof.Machine.execStxAbs a16 s
  | .styZp d8 => Sys2Proof.Machine.execStyZp d8 s
  | .styZpX d8 => Sys2Proof.Machine.execStyZpX d8 s
  | .styAbs a16 => Sys2Proof.Machine.execStyAbs a16 s
  | .tax => Sys2Proof.Machine.execTax s
  | .tay => Sys2Proof.Machine.execTay s
  | .txa => Sys2Proof.Machine.execTxa s
  | .tya => Sys2Proof.Machine.execTya s
  | .inx => Sys2Proof.Machine.execInx s
  | .iny => Sys2Proof.Machine.execIny s
  | .incZp d8 => Sys2Proof.Machine.execIncZp d8 s
  | .incZpX d8 => Sys2Proof.Machine.execIncZpX d8 s
  | .incAbs a16 => Sys2Proof.Machine.execIncAbs a16 s
  | .incAbsX a16 => Sys2Proof.Machine.execIncAbsX a16 s
  | .brk => Sys2Proof.Machine.execBrk s

end Sys2Proof.Machine
end

