-- ==== Sys2Proof/WellFormed.lean ====
section
/-! DEFINITION. Well-formedness: of dispatch-table entries and tables (spec/30_encoding.md R82), of an instruction
under a table, of a memory in its canonical form, and of a configuration (R4, R82, U4, U9, U11). An `Instr` has no
ill-formed operand: every byte and every word may follow its opcode (R80). -/

namespace Sys2Proof

/-- R82 (b): the operations of R86 and no others. -/
def Operation.known : Operation → Bool
  | .ld _ => true
  | .st _ => true
  | .tr .a .x => true
  | .tr .a .y => true
  | .tr .x .a => true
  | .tr .y .a => true
  | .tr _ _ => false
  | .incr .x => true
  | .incr .y => true
  | .incr .a => false
  | .incm => true
  | .halt => true

/-- The operations that take an effective address (R82 (c)). -/
def Operation.takesAddress : Operation → Bool
  | .ld _ => true
  | .st _ => true
  | .incm => true
  | .tr _ _ => false
  | .incr _ => false
  | .halt => false

/-- R82 (c) and (d): the modes an operation may be paired with. -/
def Operation.allows : Operation → Mode → Bool
  | .ld _, m => m != .noneAddressing
  | .st _, m => m != .noneAddressing && m != .immediate
  | .incm, m => m != .noneAddressing && m != .immediate
  | .tr _ _, m => m == .noneAddressing
  | .incr _, m => m == .noneAddressing
  | .halt, m => m == .noneAddressing

/-- R82 (a) to (d) for one entry. -/
def Entry.wf (e : Entry) : Bool :=
  (e.width == e.mode.width) && (e.op.known && e.op.allows e.mode)

/-- The construction bug that R110 and R222 name: an operation that needs an address, paired with `NoneAddressing`. -/
def Entry.addressMissing (e : Entry) : Bool :=
  e.op.takesAddress && (e.mode == .noneAddressing)

/-- R82 for a whole table: every entry is well formed, no byte has two rows (a table is a map), and the five entries
of `DT_BASE` are present with their meaning (e). -/
def Table.wf (t : Table) : Bool :=
  t.all (fun r => r.2.wf) && ((t.map (·.1)).Nodup && dtBase.all (fun r => Table.find t r.1 == some r.2))

/-- An instruction is well formed under a table when the table gives its opcode byte the entry it is the row of:
under `DT_BASE` five instructions are, under `DT_EXT` all. -/
def Instr.wf (t : TableChoice) (i : Instr) : Bool := t.find i.opcode == some i.entry

/-- The canonical form of a memory of `size` cells: indices strictly rising and below `size`, and no listed byte
equal to what an unlisted cell reads as. -/
abbrev Memory.wf (size : Nat) (m : Memory) : Prop :=
  m.Pairwise (fun c d => c.1 < d.1) ∧ ∀ c ∈ m, c.1 < size ∧ c.2 ≠ Memory.unlisted

/-- The configurations the model accepts at `create`: a well-formed table (U9), no device wired (U4), and initial
contents in canonical form (U11). -/
abbrev Config.wf (c : Config) : Prop :=
  Table.wf c.dt.rows = true ∧ c.ioDevice = .none ∧
    Memory.wf ramSize c.ramInit ∧ Memory.wf romSize c.romInit ∧ Memory.wf flatSize c.flatInit

end Sys2Proof
end

