-- ==== Sys2Proof/Machine/Sequencer.lean ====
section
/-! DEFINITION. The fetch-decode-execute step of the control sequencer (spec/45_control_sequencer.md R196 to R198).
An entry that is a row of spec/opcode_table.json is executed as an `Instr`: the operand bytes are read (R83) and `exec`
runs. Any other entry of a user-supplied table is executed by `runOperation`, the pseudocode of R86. -/

namespace Sys2Proof.Machine

/-- Fetch: "opcode <- MemRead(a, 1); PC <- a +_16 1" (R196); if the read is fatal, `PC` is not advanced. -/
def fetchOpcode (s : State) : Res Byte :=
  (memRead s.pc s).bind fun op s1 => .ok op (s1.advance 1)

/-- An operation as the spec's pseudocode writes it, with the resolver reading the operand bytes at `PC`
(R86: R120, R150, R170, R180, R183, R202; R198). -/
def runOperation (opcode : Byte) (e : Entry) (s : State) : Outcome :=
  match e.op with
  | .ld r => load r (resolve opcode e.mode s) e.width
  | .st r => store r (resolve opcode e.mode s) e.width
  | .tr src dst => transfer src dst e.width s
  | .incr r => incReg r e.width s
  | .incm => incMem (resolve opcode e.mode s) e.width
  | .halt => halt e.width s

/-- Execute a table entry with `PC` at the first operand byte (R198). An entry that breaks R82 is refused (U9), but
for the one whose behaviour R222 gives: an address-taking operation with `NoneAddressing` is fatal
(log entry 10). -/
def runEntry (opcode : Byte) (e : Entry) (s : State) : Outcome :=
  match e.shape with
  | some (.f1 i) => exec i s
  | some (.f2 mk) => (memRead s.pc s).finish fun d8 s1 => exec (mk d8) s1
  | some (.f3 mk) => (readWord s.pc s).finish fun a16 s1 => exec (mk a16) s1
  | none => if e.wf || e.addressMissing then runOperation opcode e s else .refused .malformedTableEntry

/-- Decode and execute: an opcode byte without an entry is fatal (R197, R221); `PC` is already past it. -/
def decodeAndRun (opcode : Byte) (s : State) : Outcome :=
  match s.cfg.dt.find opcode with
  | none => .next (s.raise (.unimplementedOpcode opcode s.pc))
  | some e => runEntry opcode e s

/-- One instruction: fetch, decode, execute, advance (R196 to R198). -/
def runInstruction (s : State) : Outcome := (fetchOpcode s).finish decodeAndRun

end Sys2Proof.Machine
end

