-- ==== Sys2Proof/Machine/Step.lean ====
section
/-! DEFINITION. One step of the machine (spec/45_control_sequencer.md R195, R200), and a state with an instruction
placed where the next step fetches it. -/

namespace Sys2Proof.Machine

/-- A step is one instruction, taken only while `SEQ = Running`; a state with `SEQ = Halted` or `SEQ = Faulted` has no
step (R195, R200). -/
def step (s : State) : Host.Outcome State Fault Refusal :=
  match s.seq with
  | .running => runInstruction s
  | .halted => .fault .sequencerHalted
  | .faulted => .fault .sequencerFaulted

/-- `s` with an instruction's bytes in the cells at `PC` and the sequencer started (`run` sets `SEQ <- Running`,
R254), so that the next step runs it (log entry 4). -/
def State.withFetchWord (s : State) (nbits w : Nat) : State :=
  { s.placeBytes s.pc (tableBytes nbits w) with seq := .running }

end Sys2Proof.Machine
end

