-- ==== Sys2Proof/Machine/Lifecycle.lean ====
section
/-! DEFINITION. The host's side of the machine (spec/70_reset_and_hazards.md R250 to R256): the lifecycle commands and
the host's memory accesses. Each is one transaction on a state with `SEQ = Halted`; in any other state the command is
refused (R254, R256, U15; log entry 8). -/

namespace Sys2Proof.Machine

/-- A command is applied only while `SEQ = Halted` (R195, R254, R256). -/
def whenHalted (s : State) (k : Outcome) : Outcome :=
  match s.seq with
  | .halted => k
  | .running => .refused .commandWhenRunning
  | .faulted => .refused .commandWhenFaulted

/-- `create` (R250): a new instance, for a configuration the model accepts (R82, U4, U9, U11). -/
def create (c : Config) : Outcome :=
  if c.wf then .next (State.created c) else .refused .configurationNotAccepted

/-- Bytes written one by one to ascending addresses through the capability (R251). -/
def writeBytes (addr : Word) (bytes : List Byte) (s : State) : Res Unit :=
  match bytes with
  | [] => .ok () s
  | b :: bs => (memWrite addr b s).bind fun _ s1 => writeBytes (addr + 1) bs s1

/-- `load(program)` (R251): the image to 0x8000 upwards, then 0x8000 into the reset vector; an image of more than
0x8000 bytes is refused (R252). -/
def loadProgram (program : List Byte) (s : State) : Outcome :=
  whenHalted s
    (if program.length ≤ 0x8000 then
      (writeBytes 0x8000 program s).finish fun _ s1 =>
        (writeWord 0xFFFC 0x8000 s1).finish fun _ s2 => .next s2
    else .refused .imageTooLong)

/-- `reset` (R253): registers and flags zero, `PC` from the reset vector, low byte read first. -/
def resetCommand (s : State) : Outcome :=
  whenHalted s
    ((readWord 0xFFFC s).finish fun v s1 => .next { s1 with a := 0x00, x := 0x00, y := 0x00, p := 0x00, pc := v })

/-- The start of `run`: "sets `SEQ <- Running`", and clears nothing (R201, R254). -/
def startRun (s : State) : Outcome := whenHalted s (.next { s with seq := .running })

/-- The run loop (R201) under fuel, which is the executor's and no part of the state (R205, D28): steps until `SEQ` is
no longer `Running`. Out of fuel, the state is still `Running` and is not a final state (U17). -/
def runLoop : Nat → State → Outcome
  | 0, s => .next s
  | fuel + 1, s =>
    match s.seq with
    | .running =>
      match step s with
      | .next t => runLoop fuel t
      | .fault r => .fault r
      | .refused r => .refused r
    | .halted => .next s
    | .faulted => .next s

/-- Go on with a command after another, unless it stopped. -/
def thenCommand (o : Outcome) (k : State → Outcome) : Outcome :=
  match o with
  | .next s => k s
  | .fault r => .fault r
  | .refused r => .refused r

/-- `run` (R254), under fuel. -/
def runCommand (fuel : Nat) (s : State) : Outcome := thenCommand (startRun s) (runLoop fuel)

/-- `load_and_run(program)`: "composes load, reset, run in that order" (R255), under fuel. -/
def loadAndRun (fuel : Nat) (program : List Byte) (s : State) : Outcome :=
  thenCommand (loadProgram program s) fun s1 => thenCommand (resetCommand s1) (runCommand fuel)

/-- A host access between runs follows every rule of an ordinary access (R256). -/
def hostAccess {α : Type} (s : State) (r : Res α) : Res α :=
  match s.seq with
  | .halted => r
  | .running => .stop (.refused .commandWhenRunning)
  | .faulted => .stop (.refused .commandWhenFaulted)

/-- The host's `read(addr)` (R256). -/
def hostRead (addr : Word) (s : State) : Res Byte := hostAccess s (memRead addr s)

/-- The host's `write(addr, v)` (R256). -/
def hostWrite (addr : Word) (v : Byte) (s : State) : Res Unit := hostAccess s (memWrite addr v s)

/-- The host's `read_word(addr)` (R256). -/
def hostReadWord (addr : Word) (s : State) : Res Word := hostAccess s (readWord addr s)

/-- The host's `write_word(addr, w)` (R256). -/
def hostWriteWord (addr : Word) (w : Word) (s : State) : Res Unit := hostAccess s (writeWord addr w s)

end Sys2Proof.Machine
end

