-- ==== Sys2Proof/Safety.lean ====
section
/-! DEFINITION. What claims are stated in terms of: how a run ended (spec/45_control_sequencer.md R206), the byte
an address reads as, which addresses share a cell (spec/20_memory.md R48), and the invariant of the machine. -/

namespace Sys2Proof

/-! ## The instructions by shape, for statements about many of them -/

/-- The Immediate loads LDA, LDX, LDY: register and datum (R122, R131, R137). -/
def Instr.immLoad? : Instr → Option (Reg × Byte)
  | .ldaImm d8 => some (.a, d8)
  | .ldxImm d8 => some (.x, d8)
  | .ldyImm d8 => some (.y, d8)
  | _ => none

/-- The 15 loads from memory: register and addressing form (R123 to R129, R132 to R135, R138 to R141). -/
def Instr.memLoad? : Instr → Option (Reg × MemOperand)
  | .ldaIndX d8 => some (.a, .indirectX d8)
  | .ldaZp d8 => some (.a, .zeroPage d8)
  | .ldaIndY d8 => some (.a, .indirectY d8)
  | .ldaZpX d8 => some (.a, .zeroPageX d8)
  | .ldaAbs a16 => some (.a, .absolute a16)
  | .ldaAbsY a16 => some (.a, .absoluteY a16)
  | .ldaAbsX a16 => some (.a, .absoluteX a16)
  | .ldxZp d8 => some (.x, .zeroPage d8)
  | .ldxZpY d8 => some (.x, .zeroPageY d8)
  | .ldxAbs a16 => some (.x, .absolute a16)
  | .ldxAbsY a16 => some (.x, .absoluteY a16)
  | .ldyZp d8 => some (.y, .zeroPage d8)
  | .ldyZpX d8 => some (.y, .zeroPageX d8)
  | .ldyAbs a16 => some (.y, .absolute a16)
  | .ldyAbsX a16 => some (.y, .absoluteX a16)
  | _ => none

/-- The 13 stores: register and addressing form (R152 to R158, R160 to R162, R164 to R166). -/
def Instr.store? : Instr → Option (Reg × MemOperand)
  | .staIndX d8 => some (.a, .indirectX d8)
  | .staZp d8 => some (.a, .zeroPage d8)
  | .staIndY d8 => some (.a, .indirectY d8)
  | .staZpX d8 => some (.a, .zeroPageX d8)
  | .staAbs a16 => some (.a, .absolute a16)
  | .staAbsY a16 => some (.a, .absoluteY a16)
  | .staAbsX a16 => some (.a, .absoluteX a16)
  | .stxZp d8 => some (.x, .zeroPage d8)
  | .stxZpY d8 => some (.x, .zeroPageY d8)
  | .stxAbs a16 => some (.x, .absolute a16)
  | .styZp d8 => some (.y, .zeroPage d8)
  | .styZpX d8 => some (.y, .zeroPageX d8)
  | .styAbs a16 => some (.y, .absolute a16)
  | _ => none

/-- The four transfers TAX, TAY, TXA, TYA: source and destination (R171 to R174). -/
def Instr.transfer? : Instr → Option (Reg × Reg)
  | .txa => some (.x, .a)
  | .tya => some (.y, .a)
  | .tay => some (.a, .y)
  | .tax => some (.a, .x)
  | _ => none

/-- The register increments INX, INY (R181, R182). -/
def Instr.incReg? : Instr → Option (Reg)
  | .iny => some .y
  | .inx => some .x
  | _ => none

/-- The four memory increments INC: addressing form (R184 to R187). -/
def Instr.incMem? : Instr → Option (MemOperand)
  | .incZp d8 => some (.zeroPage d8)
  | .incZpX d8 => some (.zeroPageX d8)
  | .incAbs a16 => some (.absolute a16)
  | .incAbsX a16 => some (.absoluteX a16)
  | _ => none

end Sys2Proof

namespace Sys2Proof.Machine

/-- A run ended normally exactly when `SEQ = Halted` (R206). -/
abbrev State.endedNormally (s : State) : Prop := s.seq = .halted

/-- A run ended abnormally exactly when `SEQ = Faulted`, which is no final state of a program (R206). -/
abbrev State.endedAbnormally (s : State) : Prop := s.seq = .faulted

/-- The byte a read of an address gives; none in the I/O window, where a read gives no value (R49). -/
def State.byteAt (s : State) (addr : Word) : Option Byte := (memRead addr s).value

/-- The address can be accessed: it is not in the I/O window. -/
abbrev State.accessible (s : State) (addr : Word) : Prop := ∀ m, s.target addr ≠ .ioWindow m

/-- The address has a backing cell ("backed region", spec/00_scope.md section 8). -/
abbrev State.backed (s : State) (addr : Word) : Prop := ∃ c, s.target addr = .cell c

/-- Two addresses are backed by one cell: they are in one mirror class (R48). -/
abbrev State.sameCell (s : State) (addr other : Word) : Prop := ∃ c, s.target addr = .cell c ∧ s.target other = .cell c

/-- Two states that hold the same registers, program counter, sequencer state, fault latch, memory and configuration,
and may differ in the log only. -/
abbrev State.sameButLog (s t : State) : Prop := t = { s with log := t.log }

/-- Neither the registers, nor memory, nor the configuration differ: what a fatal condition leaves as it was (R225). -/
abbrev State.sameData (s t : State) : Prop :=
  (t.a = s.a ∧ t.x = s.x ∧ t.y = s.y ∧ t.p = s.p) ∧ (t.ram = s.ram ∧ t.rom = s.rom ∧ t.flat = s.flat) ∧ t.cfg = s.cfg

/-- The arrays are in canonical form, inside their sizes, and the memory that is not attached is empty (R21). -/
abbrev State.memoryInv (s : State) : Prop :=
  (Memory.wf ramSize s.ram ∧ Memory.wf romSize s.rom ∧ Memory.wf flatSize s.flat) ∧
    (s.cfg.memImpl = .bus → s.flat = []) ∧ (s.cfg.memImpl = .flat → s.ram = [] ∧ s.rom = [] ∧ s.log = [])

/-- The bits of `P` that are not Z or N are 0 (R17), and Z and N are never both 1 (R18). -/
abbrev State.statusInv (s : State) : Prop := s.p = 0x00 ∨ s.p = 0x02 ∨ s.p = 0x80

/-- The fault latch holds a condition exactly in `Faulted` (R20). -/
abbrev State.latchInv (s : State) : Prop := s.fault.isSome = true ↔ s.seq = .faulted

/-- The invariant of the machine. -/
abbrev State.Inv (s : State) : Prop := s.memoryInv ∧ s.statusInv ∧ s.latchInv

end Sys2Proof.Machine
end

