-- ==== Sys2Proof/Certificates/Slice0/Obligations.lean ====
section
/-! DEFINITION. The statements for the provers. Each docstring names the rule of spec/ the statement is about. -/

open Sys2Proof Sys2Proof.Machine

/-! ## Encoding -/

/-- R80, R81, R83, R85: decoding the bytes of any instruction, with any operand bytes and whatever follows, gives
that instruction back and leaves what follows. -/
def Obligations.DecodingAnEncodedInstructionGivesItBack : Prop :=
  ∀ (i : Instr) (rest : List Byte), decode (encode i ++ rest) = .instr i rest

/-- R81, R91: bytes that decode to an instruction are that instruction's encoding and what follows; so every
instruction has one spelling and its length is that of its encoding. -/
def Obligations.DecodedBytesAreTheInstructionsEncoding : Prop :=
  ∀ (bytes : List Byte) (i : Instr) (rest : List Byte), decode bytes = .instr i rest → bytes = encode i ++ rest

/-- R87, R88: an opcode byte is rejected as unimplemented exactly when `DT_EXT` has no entry for it, whatever bytes
follow; 214 byte values are without an entry under `DT_EXT`, 251 under `DT_BASE`. -/
def Obligations.DecoderRejectsExactlyTheAbsentOpcodes : Prop :=
  (∀ (op : Byte) (rest : List Byte),
    decode (op :: rest) = .reject (.unimplementedOpcode op) ↔ TableChoice.ext.find op = none) ∧
  ((List.range 256).filter fun n => (TableChoice.ext.find (BitVec.ofNat 8 n)).isNone).length = 214 ∧
  ((List.range 256).filter fun n => (TableChoice.base.find (BitVec.ofNat 8 n)).isNone).length = 251

/-- The words of R90's example table and the Encoding lines of R152, R161, R182, R187 and R202 decode to the
instructions they stand for. -/
def Obligations.WordsOfTheSpecDecodeToTheirInstructions : Prop :=
  decode [0xAA] = .instr .tax [] ∧ decode [0xA9, 0x05] = .instr (.ldaImm 0x05) [] ∧
  decode [0xA5, 0x10] = .instr (.ldaZp 0x10) [] ∧ decode [0xB5, 0x10] = .instr (.ldaZpX 0x10) [] ∧
  decode [0xB6, 0x10] = .instr (.ldxZpY 0x10) [] ∧ decode [0xAD, 0x34, 0x12] = .instr (.ldaAbs 0x1234) [] ∧
  decode [0xBD, 0x34, 0x12] = .instr (.ldaAbsX 0x1234) [] ∧ decode [0xB9, 0x34, 0x12] = .instr (.ldaAbsY 0x1234) [] ∧
  decode [0xA1, 0x10] = .instr (.ldaIndX 0x10) [] ∧ decode [0xB1, 0x10] = .instr (.ldaIndY 0x10) [] ∧
  decode [0x85, 0x10] = .instr (.staZp 0x10) [] ∧ decode [0x96, 0x20] = .instr (.stxZpY 0x20) [] ∧
  decode [0xC8] = .instr .iny [] ∧ decode [0xFE, 0xFF, 0x17] = .instr (.incAbsX 0x17FF) [] ∧
  decode [0x00] = .instr .brk []

/-- R82, R84, R85: both named tables are well formed, with 5 and 42 entries, and `DT_EXT` agrees with `DT_BASE`
wherever `DT_BASE` has an entry. -/
def Obligations.NamedDispatchTablesAreWellFormed : Prop :=
  Table.wf dtBase = true ∧ Table.wf dtExt = true ∧ dtBase.length = 5 ∧ dtExt.length = 42 ∧
  ∀ op e, TableChoice.base.find op = some e → TableChoice.ext.find op = some e

/-! ## The step -/

/-- R195 to R198: when the bytes at `PC` are those of an instruction (under the machine's dispatch table, any of
them), a step is that instruction's meaning after `PC` has moved past the opcode byte. The meaning itself moves
`PC` past the operand bytes. -/
def Obligations.StepRunsTheDecodedInstruction : Prop :=
  ∀ (s : State) (bytes : List Byte) (i : Instr), s.seq = .running → decodeWith s.cfg.dt bytes = .instr i [] →
    (∀ k (h : k < bytes.length), memRead (s.pc + BitVec.ofNat 16 k) s = .ok bytes[k] s) →
    step s = exec i (s.advance 1)

/-- R196, R197: fetch, then decode: a fatal opcode read ends the step as it stands, with `PC` not advanced; otherwise
`PC` is advanced by 1, a byte without an entry is fatal and reports the byte and the advanced `PC`, and a byte with an
entry executes that entry, whatever else the state holds. -/
def Obligations.StepFetchesThenDecodes : Prop :=
  ∀ s : State, s.seq = .running →
    (∀ o, memRead s.pc s = .stop o → step s = o ∧ ∀ t, o = .next t → t.pc = s.pc) ∧
    (∀ op s1, memRead s.pc s = .ok op s1 →
      (s.cfg.dt.find op = none →
        step s = .next { s1 with
          pc := s.pc + 1, fault := some (.unimplementedOpcode op (s.pc + 1)), seq := .faulted }) ∧
      (∀ e, s.cfg.dt.find op = some e → step s = runEntry op e { s1 with pc := s.pc + 1 }))

/-- R52, R196, R202: under any well-formed table, an opcode fetch from the unmapped range reads 0x00, which is the halt
opcode, is logged, and halts with `PC` past that address. -/
def Obligations.OpcodeFetchFromUnmappedRangeHalts : Prop :=
  ∀ s : State, s.seq = .running → s.cfg.memImpl = .bus → Table.wf s.cfg.dt.rows = true →
    0x4000 ≤ s.pc.toNat → s.pc.toNat < 0x8000 →
    step s = .next { s with pc := s.pc + 1, seq := .halted, log := s.log ++ [.unmappedRead s.pc] }

/-- R200, R228: a state with `SEQ = Halted` or `SEQ = Faulted` has no step (the two names for being stuck are the model's,
log entry 3). -/
def Obligations.OnlyRunningStatesHaveAStep : Prop :=
  ∀ s : State, (s.seq = .halted → step s = .fault .sequencerHalted) ∧
    (s.seq = .faulted → step s = .fault .sequencerFaulted)

/-- R86, R198, R83: executing a well-formed entry as a decoded instruction, with the operand bytes read first, is the
spec's own pseudocode of the operation, with the resolver reading the operand bytes at `PC`. -/
def Obligations.DecodedExecutionIsThePseudocode : Prop :=
  ∀ (op : Byte) (e : Entry) (s : State), e.wf = true → runEntry op e s = runOperation op e s

/-- R110, R222: an entry that pairs an operation needing an address with `NoneAddressing` is fatal before any read,
reports the opcode byte and `PC`, and stands in neither named table. -/
def Obligations.ResolvingNoneAddressingIsFatal : Prop :=
  (∀ (op : Byte) (e : Entry) (s : State), e.op.takesAddress = true → e.mode = .noneAddressing →
    runEntry op e s = .next { s with fault := some (.invalidAddressingMode op s.pc), seq := .faulted }) ∧
  (∀ op e, (TableChoice.ext.find op = some e ∨ TableChoice.base.find op = some e) →
    ¬(e.op.takesAddress = true ∧ e.mode = .noneAddressing))

/-- R82, R200: with a well-formed table and no device wired there is no fourth outcome: every step of a running state
gives a next state, and that state is `Running`, `Halted` by a halt opcode, or `Faulted`. -/
def Obligations.EveryRunningStateHasANextState : Prop :=
  ∀ s : State, s.seq = .running → Table.wf s.cfg.dt.rows = true → s.cfg.ioDevice = .none →
    ∃ t, step s = .next t ∧
      (t.seq = .halted → ∃ op e, (memRead s.pc s).value = some op ∧ s.cfg.dt.find op = some e ∧ e.op = .halt)

/-! ## Loads, stores, transfers, increments, the halt -/

/-- `exec` of an Immediate load (R122, R131, R137) runs with its operand byte already read by the sequencer: that is the
model's choice (log entry 2), since R101 and R120 have the load itself read the byte at `PC`, logged in the unmapped range
and fatal in the I/O window. Given the byte, the load puts it into the register, sets Z and N from it, moves `PC` past it
and changes nothing else, in every state. The read of the byte is in the statement on load entries. -/
def Obligations.ImmediateLoadsLoadTheirOperand : Prop :=
  ∀ (i : Instr) (r : Reg) (d8 : Byte) (s : State), i.immLoad? = some (r, d8) →
    exec i s = .next { s.setReg r d8 with p := statusZN d8 s.p, pc := s.pc + 1 }

/-- R120 for `exec` of a load from memory, its operand bytes already read by the sequencer (the model's choice, log entry 2),
in every form (R123 to R129, R132 to R135, R138 to R141): the byte of the cell goes into the register, Z and N are set from
it and `PC` moves past the operand bytes; from the unmapped range it is 0x00 and the read is logged; in the I/O window the
load is fatal (refused with a device wired) and does nothing else. -/
def Obligations.MemoryLoadsLoadTheAddressedByte : Prop :=
  ∀ (i : Instr) (r : Reg) (o : MemOperand) (ea : Word) (s : State), i.memLoad? = some (r, o) → effAddr o s = .ok ea s →
    (∀ c, s.target ea = .cell c →
      exec i s = .next { s.setReg r (s.readCell c) with
        p := statusZN (s.readCell c) s.p, pc := s.pc + BitVec.ofNat 16 (operandWidth o) }) ∧
    (s.target ea = .unmapped →
      exec i s = .next { s.setReg r 0x00 with
        p := statusZN 0x00 s.p, pc := s.pc + BitVec.ofNat 16 (operandWidth o), log := s.log ++ [.unmappedRead ea] }) ∧
    (∀ m, s.target ea = .ioWindow m → s.cfg.ioDevice = .none →
      exec i s = .next { s with fault := some (.unimplementedDevice .read ea m), seq := .faulted }) ∧
    (∀ m, s.target ea = .ioWindow m → s.cfg.ioDevice = .wired → exec i s = .refused .deviceWired)

/-- R150 for `exec` of a store, its operand bytes already read by the sequencer (the model's choice, log entry 2), in every
form (R152 to R158, R160 to R162, R164 to R166): the register's byte goes to the cell and `PC` moves past the operand bytes,
and no flag or register changes; in the unmapped range the write is logged and discarded; in the I/O window the store is
fatal (refused with a device wired) and does nothing else. -/
def Obligations.StoresWriteTheRegisterToTheAddressedCell : Prop :=
  ∀ (i : Instr) (r : Reg) (o : MemOperand) (ea : Word) (s : State), i.store? = some (r, o) → effAddr o s = .ok ea s →
    (∀ c, s.target ea = .cell c →
      exec i s = .next { s.writeCell c (s.reg r) with pc := s.pc + BitVec.ofNat 16 (operandWidth o) }) ∧
    (s.target ea = .unmapped →
      exec i s = .next { s with
        pc := s.pc + BitVec.ofNat 16 (operandWidth o), log := s.log ++ [.unmappedWrite ea (s.reg r)] }) ∧
    (∀ m, s.target ea = .ioWindow m → s.cfg.ioDevice = .none →
      exec i s = .next { s with fault := some (.unimplementedDevice .write ea m), seq := .faulted }) ∧
    (∀ m, s.target ea = .ioWindow m → s.cfg.ioDevice = .wired → exec i s = .refused .deviceWired)

/-- R183 for `exec` of INC, its operand bytes already read by the sequencer (the model's choice, log entry 2), in every form
(R184 to R187): one read and one write of the value plus 1 (modulo 256) at the same address, Z and N from the value written,
`PC` past the operand bytes; in the unmapped range both accesses are logged and the flags are those of 0x01; in the I/O
window the read is fatal (refused with a device wired) and nothing else happens. -/
def Obligations.MemoryIncrementsAddOneToTheAddressedCell : Prop :=
  ∀ (i : Instr) (o : MemOperand) (ea : Word) (s : State), i.incMem? = some o → effAddr o s = .ok ea s →
    (∀ c, s.target ea = .cell c →
      exec i s = .next { s.writeCell c (s.readCell c + 1) with
        p := statusZN (s.readCell c + 1) s.p, pc := s.pc + BitVec.ofNat 16 (operandWidth o) }) ∧
    (s.target ea = .unmapped →
      exec i s = .next { s with
        p := statusZN 0x01 s.p, pc := s.pc + BitVec.ofNat 16 (operandWidth o),
        log := s.log ++ [.unmappedRead ea, .unmappedWrite ea 0x01] }) ∧
    (∀ m, s.target ea = .ioWindow m → s.cfg.ioDevice = .none →
      exec i s = .next { s with fault := some (.unimplementedDevice .read ea m), seq := .faulted }) ∧
    (∀ m, s.target ea = .ioWindow m → s.cfg.ioDevice = .wired → exec i s = .refused .deviceWired)

/-- R170 (R171 to R174): a transfer copies the source register into the destination, sets Z and N from the value, and
changes nothing else; it completes in every state. -/
def Obligations.TransfersCopyTheSourceRegister : Prop :=
  ∀ (i : Instr) (src dst : Reg) (s : State), i.transfer? = some (src, dst) →
    exec i s = .next { s.setReg dst (s.reg src) with p := statusZN (s.reg src) s.p }

/-- R180 (R181, R182): INX and INY add 1 modulo 256 to their register, set Z and N from the sum, and change nothing
else; they complete in every state. -/
def Obligations.RegisterIncrementsAddOne : Prop :=
  ∀ (i : Instr) (r : Reg) (s : State), i.incReg? = some r →
    exec i s = .next { s.setReg r (s.reg r + 1) with p := statusZN (s.reg r + 1) s.p } ∧
    (s.reg r + 1).toNat = ((s.reg r).toNat + 1) % 256

/-- R202: the halt opcode is the one byte 0x00; it sets `SEQ` to `Halted` and changes nothing else; it completes in
every state. -/
def Obligations.HaltOpcodeOnlyHalts : Prop :=
  encode .brk = [0x00] ∧ ∀ s : State, exec .brk s = .next { s with seq := .halted }

/-- R120 for every register and mode a well-formed table may pair (R82), in the 42 rows or not: a load reads the byte at
`EA(mode)` into its register, sets Z and N from it and advances `PC` by the mode's width; where the resolver or the read is
fatal (or refused) the step ends as it does. -/
def Obligations.LoadEntriesLoadFromTheResolvedAddress : Prop :=
  ∀ (op : Byte) (r : Reg) (m : Mode) (s : State), Entry.wf ⟨.ld r, m, m.width⟩ = true →
    (∀ o, resolve op m s = .stop o → runEntry op ⟨.ld r, m, m.width⟩ s = o) ∧
    (∀ ea s1, resolve op m s = .ok ea s1 →
      (∀ v s2, memRead ea s1 = .ok v s2 → runEntry op ⟨.ld r, m, m.width⟩ s =
        .next { s2.setReg r v with p := statusZN v s.p, pc := s.pc + BitVec.ofNat 16 m.width }) ∧
      (∀ o, memRead ea s1 = .stop o → runEntry op ⟨.ld r, m, m.width⟩ s = o))

/-- R150 for every register and mode a well-formed table may pair: a store writes the whole register to `EA(mode)` and
advances `PC` by the mode's width, and changes no register and no flag; where the resolver or the write is fatal (or
refused) the step ends as it does. -/
def Obligations.StoreEntriesStoreToTheResolvedAddress : Prop :=
  ∀ (op : Byte) (r : Reg) (m : Mode) (s : State), Entry.wf ⟨.st r, m, m.width⟩ = true →
    (∀ o, resolve op m s = .stop o → runEntry op ⟨.st r, m, m.width⟩ s = o) ∧
    (∀ ea s1, resolve op m s = .ok ea s1 →
      (∀ s2, memWrite ea (s.reg r) s1 = .ok () s2 →
        runEntry op ⟨.st r, m, m.width⟩ s = .next { s2 with pc := s.pc + BitVec.ofNat 16 m.width } ∧
        (s2.a = s.a ∧ s2.x = s.x ∧ s2.y = s.y ∧ s2.p = s.p)) ∧
      (∀ o, memWrite ea (s.reg r) s1 = .stop o → runEntry op ⟨.st r, m, m.width⟩ s = o))

/-- R183 for every mode a well-formed table may pair: INC reads the byte at `EA(mode)`, writes it plus 1 (modulo 256) to
the same address, sets Z and N from the value written and advances `PC` by the mode's width, and changes no register;
where the resolver or the read is fatal (or refused) the step ends as it does, and no write is attempted. -/
def Obligations.IncrementEntriesIncrementTheResolvedAddress : Prop :=
  ∀ (op : Byte) (m : Mode) (s : State), Entry.wf ⟨.incm, m, m.width⟩ = true →
    (∀ o, resolve op m s = .stop o → runEntry op ⟨.incm, m, m.width⟩ s = o) ∧
    (∀ ea s1, resolve op m s = .ok ea s1 →
      (∀ v s2 s3, memRead ea s1 = .ok v s2 → memWrite ea (v + 1) s2 = .ok () s3 →
        runEntry op ⟨.incm, m, m.width⟩ s =
          .next { s3 with p := statusZN (v + 1) s.p, pc := s.pc + BitVec.ofNat 16 m.width } ∧
        (s3.a = s.a ∧ s3.x = s.x ∧ s3.y = s.y)) ∧
      (∀ o, memRead ea s1 = .stop o → runEntry op ⟨.incm, m, m.width⟩ s = o))

/-! ## What instructions leave unchanged -/

/-- The frame of `exec` of the transfers, INX and INY, which access no memory after the opcode fetch (R170, R180), and of the
Immediate loads, whose operand byte the sequencer has already read: that is the model's choice (log entry 2), since R101 and
R120 have the load read it, and log it in the unmapped range. Only the destination register, Z and N, and `PC` may change;
every byte of memory reads as before. -/
def Obligations.RegisterInstructionsFrame : Prop :=
  ∀ (i : Instr) (dst : Reg) (s t : State),
    ((∃ d8, i.immLoad? = some (dst, d8)) ∨ (∃ src, i.transfer? = some (src, dst)) ∨ i.incReg? = some dst) →
    exec i s = .next t →
    (∀ r, r ≠ dst → t.reg r = s.reg r) ∧ (∀ k, k ≠ 1 → k ≠ 7 → t.p.getLsbD k = s.p.getLsbD k) ∧
    (t.seq = s.seq ∧ t.fault = s.fault ∧ t.log = s.log ∧ t.cfg = s.cfg) ∧ ∀ addr, t.byteAt addr = s.byteAt addr

/-- The frame of the loads from memory (R120, "Memory is not changed by a load"): when a load completes, only its register,
Z and N, `PC` and the log may change; every byte of memory reads as before. `exec` runs with the operand bytes read (log
entry 2). -/
def Obligations.MemoryLoadsFrame : Prop :=
  ∀ (i : Instr) (dst : Reg) (o : MemOperand) (s t : State), i.memLoad? = some (dst, o) → s.seq = .running →
    exec i s = .next t → t.seq = .running →
    (∀ r, r ≠ dst → t.reg r = s.reg r) ∧ (∀ k, k ≠ 1 → k ≠ 7 → t.p.getLsbD k = s.p.getLsbD k) ∧
    (t.fault = s.fault ∧ t.cfg = s.cfg) ∧ ∀ addr, t.byteAt addr = s.byteAt addr

/-- The frame of the stores (R150, "No register changes and no bit of `P` changes"): when a store completes, every
register and flag is as before, and every address that does not share its cell with the address stored to reads as
before. `exec` runs with the operand bytes read (log entry 2). -/
def Obligations.StoresFrame : Prop :=
  ∀ (i : Instr) (r : Reg) (o : MemOperand) (ea : Word) (s t : State), i.store? = some (r, o) → s.seq = .running →
    effAddr o s = .ok ea s → exec i s = .next t → t.seq = .running →
    (∀ q, t.reg q = s.reg q) ∧ t.p = s.p ∧ (t.fault = s.fault ∧ t.cfg = s.cfg) ∧
    ∀ addr, ¬ s.sameCell ea addr → t.byteAt addr = s.byteAt addr

/-- The frame of INC (R183, "No register changes"): when it completes, every register is as before, of `P` only Z and N
may change, and every address that does not share its cell with the address incremented reads as before. `exec` runs with
the operand bytes read (log entry 2). -/
def Obligations.MemoryIncrementsFrame : Prop :=
  ∀ (i : Instr) (o : MemOperand) (ea : Word) (s t : State), i.incMem? = some o → s.seq = .running →
    effAddr o s = .ok ea s → exec i s = .next t → t.seq = .running →
    (∀ q, t.reg q = s.reg q) ∧ (∀ k, k ≠ 1 → k ≠ 7 → t.p.getLsbD k = s.p.getLsbD k) ∧
    (t.fault = s.fault ∧ t.cfg = s.cfg) ∧ ∀ addr, ¬ s.sameCell ea addr → t.byteAt addr = s.byteAt addr

/-! ## The status register -/

/-- R18: `SetZN(v)` sets Z exactly when `v` is 0x00 and N exactly when `v >= 0x80`, changes no other bit, and never
leaves both set. -/
def Obligations.SetZNWritesZeroAndNegativeOnly : Prop :=
  ∀ v p : Byte, (flagZ (statusZN v p) = true ↔ v = 0x00) ∧ (flagN (statusZN v p) = true ↔ 0x80 ≤ v.toNat) ∧
    flagN (statusZN v p) = v.getLsbD 7 ∧ (∀ k, k ≠ 1 → k ≠ 7 → (statusZN v p).getLsbD k = p.getLsbD k) ∧
    ¬(flagZ (statusZN v p) = true ∧ flagN (statusZN v p) = true)

/-- R17: the reserved bits of `P` (C, I, D, B, bit 5, V) are written by no step. -/
def Obligations.ReservedFlagsAreWrittenByNoStep : Prop :=
  ∀ s t : State, step s = .next t →
    flagC t.p = flagC s.p ∧ flagI t.p = flagI s.p ∧ flagD t.p = flagD s.p ∧ flagB t.p = flagB s.p ∧
    flagUnnamed t.p = flagUnnamed s.p ∧ flagV t.p = flagV s.p

/-- R17, R18, R203: no flag of `P` is ever read: a step from a state that differs in `P` only gives a state that differs
in `P` only. -/
def Obligations.FlagsAreNeverRead : Prop :=
  ∀ (s t : State) (q : Byte), step s = .next t → ∃ q', step { s with p := q } = .next { t with p := q' }

/-! ## The program counter -/

/-- R13, R14, R198, R203: a step that does not end in a fatal condition leaves `PC` at the opcode's address plus 1 plus
the operand width of the entry that the opcode byte has, modulo 65536; no instruction writes `PC` otherwise. -/
def Obligations.ProgramCounterOnlyAdvances : Prop :=
  ∀ s t : State, step s = .next t → t.seq ≠ .faulted →
    ∃ op e, (memRead s.pc s).value = some op ∧ s.cfg.dt.find op = some e ∧
      t.pc.toNat = (s.pc.toNat + 1 + e.width) % 65536

/-! ## Fatal conditions -/

/-- R225, R226: a step that ends in a fatal condition has latched it and changed no register, flag, cell or parameter;
`PC` is the opcode's address if the opcode fetch was the fatal access and that address plus 1 otherwise; log entries
are only added. -/
def Obligations.FatalConditionsArePrecise : Prop :=
  ∀ s t : State, step s = .next t → t.seq = .faulted →
    (t.fault ≠ none ∧ s.sameData t) ∧
    ((memRead s.pc s).value = none → t.pc = s.pc) ∧ ((memRead s.pc s).value ≠ none → t.pc = s.pc + 1) ∧
    s.log <+: t.log

/-! ## Memory -/

/-- R46, R47, R49, R50: under `Bus` every address is in exactly one region, with the cell or register that its masked
address names: 0x0000 to 0x1FFF the RAM cell `addr mod 2048`, 0x2000 to 0x3FFF the register `0x2000 + addr mod 8`,
0x4000 to 0x7FFF nothing, 0x8000 to 0xFFFF the ROM-window cell `addr - 0x8000`. -/
def Obligations.BusDecodesEveryAddressToItsRegion : Prop :=
  ∀ addr : Word,
    (addr.toNat < 0x2000 → decodeAddress .bus addr = .cell (.ram (addr.toNat % 2048))) ∧
    (0x2000 ≤ addr.toNat → addr.toNat < 0x4000 →
      decodeAddress .bus addr = .ioWindow (BitVec.ofNat 16 (0x2000 + addr.toNat % 8))) ∧
    (0x4000 ≤ addr.toNat → addr.toNat < 0x8000 → decodeAddress .bus addr = .unmapped) ∧
    (0x8000 ≤ addr.toNat → decodeAddress .bus addr = .cell (.rom (addr.toNat - 0x8000)))

/-- R48: two addresses of the RAM window that agree in their low 11 bits read alike at all times, and a write through
one is observed by the next read through the other. -/
def Obligations.MirrorAddressesShareOneCell : Prop :=
  ∀ (s : State) (a1 a2 : Word), s.memoryInv → s.cfg.memImpl = .bus → a1.toNat < 0x2000 → a2.toNat < 0x2000 →
    a1 &&& 0x07FF = a2 &&& 0x07FF →
    s.byteAt a1 = s.byteAt a2 ∧
    ∀ v, ∃ t, memWrite a1 v s = .ok () t ∧ memRead a2 t = .ok v t

/-- R50, R51: the program ROM window reads the stored byte and stores every byte written, whoever writes it. -/
def Obligations.RomWindowReadsAndWritesItsCells : Prop :=
  ∀ (s : State) (addr : Word) (v : Byte), s.cfg.memImpl = .bus → 0x8000 ≤ addr.toNat →
    memRead addr s = .ok (Memory.read s.rom (addr.toNat - 0x8000)) s ∧
    memWrite addr v s = .ok () { s with rom := Memory.write s.rom (addr.toNat - 0x8000) v }

/-- R52, R53: a read in the unmapped range gives 0x00 and is logged; a write there is logged and changes no cell. -/
def Obligations.UnmappedAccessesAreLoggedOnly : Prop :=
  ∀ (s : State) (addr : Word) (v : Byte), s.cfg.memImpl = .bus → 0x4000 ≤ addr.toNat → addr.toNat < 0x8000 →
    memRead addr s = .ok 0x00 { s with log := s.log ++ [.unmappedRead addr] } ∧
    memWrite addr v s = .ok () { s with log := s.log ++ [.unmappedWrite addr v] }

/-- R49, R225: an access to the I/O window is fatal and latches its kind, the address and the masked address, one of
0x2000 to 0x2007, and nothing else changes; with a device wired it is refused (the refusal's name is the model's,
log entry 11). -/
def Obligations.IoWindowAccessesAreFatal : Prop :=
  ∀ (s : State) (addr : Word) (v : Byte), s.cfg.memImpl = .bus → 0x2000 ≤ addr.toNat → addr.toNat < 0x4000 →
    (0x2000 ≤ (addr &&& 0x2007).toNat ∧ (addr &&& 0x2007).toNat ≤ 0x2007) ∧
    (s.cfg.ioDevice = .none →
      memRead addr s = .stop (.next { s with
        fault := some (.unimplementedDevice .read addr (addr &&& 0x2007)), seq := .faulted }) ∧
      memWrite addr v s = .stop (.next { s with
        fault := some (.unimplementedDevice .write addr (addr &&& 0x2007)), seq := .faulted })) ∧
    (s.cfg.ioDevice = .wired →
      memRead addr s = .stop (.refused .deviceWired) ∧ memWrite addr v s = .stop (.refused .deviceWired))

/-- R54: under `Flat` every address reads and writes its own cell, with no fatal condition and no log. -/
def Obligations.FlatMemoryIsOneCellAnAddress : Prop :=
  ∀ (s : State) (addr : Word) (v : Byte), s.cfg.memImpl = .flat →
    memRead addr s = .ok (Memory.read s.flat addr.toNat) s ∧
    memWrite addr v s = .ok () { s with flat := Memory.write s.flat addr.toNat v }

/-- R60: a read of a backed cell returns the value of the most recent write to that cell, and a write to any address
leaves the reads of every address that does not share its cell as they were. -/
def Obligations.ReadsReturnTheMostRecentWrite : Prop :=
  ∀ (s t : State) (addr : Word) (v : Byte), s.memoryInv → memWrite addr v s = .ok () t →
    (s.backed addr → memRead addr t = .ok v t) ∧ ∀ other, ¬ s.sameCell addr other → t.byteAt other = s.byteAt other

/-- R42, R43, R44, R45: the word helpers are two byte accesses, the low byte at `addr` first and the high byte at
`addr + 1` modulo 65536. -/
def Obligations.WordHelpersAreTwoByteAccesses : Prop :=
  (∀ (s s1 s2 : State) (addr : Word) (lo hi : Byte), memRead addr s = .ok lo s1 → memRead (addr + 1) s1 = .ok hi s2 →
    ∃ w, readWord addr s = .ok w s2 ∧ w.toNat = hi.toNat * 256 + lo.toNat) ∧
  (∀ (s s1 s2 : State) (addr w : Word), memWrite addr (BitVec.ofNat 8 (w.toNat % 256)) s = .ok () s1 →
    memWrite (addr + 1) (BitVec.ofNat 8 (w.toNat / 256)) s1 = .ok () s2 → writeWord addr w s = .ok () s2)

/-- R66: `write_word(addr, w)` followed by `read_word(addr)` returns `w` when both bytes lie in backed regions; in the
unmapped range it returns 0x0000. -/
def Obligations.WordRoundTripInBackedRegions : Prop :=
  ∀ (s : State) (addr w : Word), s.memoryInv →
    (s.backed addr → s.backed (addr + 1) → ∃ t, writeWord addr w s = .ok () t ∧ readWord addr t = .ok w t) ∧
    (s.target addr = .unmapped → s.target (addr + 1) = .unmapped →
      ∃ t, writeWord addr w s = .ok () t ∧ (readWord addr t).value = some 0x0000)

/-- R56: a word write whose second byte is fatal leaves the first byte written. -/
def Obligations.WordWriteCutByIoWindowKeepsItsFirstByte : Prop :=
  ∀ (s : State) (addr w m : Word) (c : CellRef), s.target addr = .cell c → s.target (addr + 1) = .ioWindow m →
    s.cfg.ioDevice = .none →
    writeWord addr w s = .stop (.next { s.writeCell c (lowByte w) with
      fault := some (.unimplementedDevice .write (addr + 1) m), seq := .faulted })

/-! ## The resolver -/

/-- R100: the resolver writes no register, no flag and no cell and does not advance `PC`; it may only log. -/
def Obligations.ResolverIsPureUpToTheLog : Prop :=
  ∀ (op : Byte) (m : Mode) (s s1 : State) (ea : Word), resolve op m s = .ok ea s1 →
    s.sameButLog s1 ∧ s.log <+: s1.log

/-- R100 to R109: the resolver reads the operand bytes at `PC`, low byte first, and gives the effective address of the
form they make, Immediate being `PC` itself with no read; where a read of an operand byte is fatal (or refused), the
resolver returns nothing and ends as that read does. -/
def Obligations.ResolverTakesOperandBytesAtPc : Prop :=
  ∀ (op : Byte) (s : State), resolve op .immediate s = .ok s.pc s ∧
    (∀ lo s1, memRead s.pc s = .ok lo s1 →
      (resolve op .zeroPage s = effAddr (.zeroPage lo) s1 ∧
        resolve op .zeroPageX s = effAddr (.zeroPageX lo) s1 ∧
        resolve op .zeroPageY s = effAddr (.zeroPageY lo) s1 ∧
        resolve op .indirectX s = effAddr (.indirectX lo) s1 ∧
        resolve op .indirectY s = effAddr (.indirectY lo) s1) ∧
      (∀ hi s2, memRead (s.pc + 1) s1 = .ok hi s2 →
        resolve op .absolute s = effAddr (.absolute (assemble hi lo)) s2 ∧
        resolve op .absoluteX s = effAddr (.absoluteX (assemble hi lo)) s2 ∧
        resolve op .absoluteY s = effAddr (.absoluteY (assemble hi lo)) s2) ∧
      (∀ m o, m.width = 2 → memRead (s.pc + 1) s1 = .stop o → resolve op m s = .stop o)) ∧
    (∀ m o, m ≠ .immediate → m ≠ .noneAddressing → memRead s.pc s = .stop o → resolve op m s = .stop o)

/-- R102, R103, R104: with the operand byte `d8` read at `PC`, the zero-page modes give `d8`, `d8 + X` and `d8 + Y`
modulo 256 as a 16-bit address, which is in 0x0000 to 0x00FF always (R114). -/
def Obligations.ZeroPageAddressesStayInPageZero : Prop :=
  ∀ (op d8 : Byte) (s s1 : State), memRead s.pc s = .ok d8 s1 → ∃ e0 ex ey : Word,
    (resolve op .zeroPage s = .ok e0 s1 ∧ e0.toNat = d8.toNat) ∧
    (resolve op .zeroPageX s = .ok ex s1 ∧ ex.toNat = (d8.toNat + s.x.toNat) % 256) ∧
    (resolve op .zeroPageY s = .ok ey s1 ∧ ey.toNat = (d8.toNat + s.y.toNat) % 256) ∧
    (e0.toNat < 0x100 ∧ ex.toNat < 0x100 ∧ ey.toNat < 0x100)

/-- R105, R106, R107: with the operand bytes `lo` read at `PC` and `hi` at `PC + 1`, the absolute modes give the
little-endian word, and that word plus X or Y modulo 65536, with carry into the high byte. -/
def Obligations.AbsoluteAddressesAddTheIndexModulo65536 : Prop :=
  ∀ (op lo hi : Byte) (s s1 s2 : State), memRead s.pc s = .ok lo s1 → memRead (s.pc + 1) s1 = .ok hi s2 →
    ∃ ea ex ey : Word,
    (resolve op .absolute s = .ok ea s2 ∧ ea.toNat = hi.toNat * 256 + lo.toNat) ∧
    (resolve op .absoluteX s = .ok ex s2 ∧ ex.toNat = (hi.toNat * 256 + lo.toNat + s.x.toNat) % 65536) ∧
    (resolve op .absoluteY s = .ok ey s2 ∧ ey.toNat = (hi.toNat * 256 + lo.toNat + s.y.toNat) % 65536)

/-- R108, R109: with the operand byte `d8` read at `PC`, the indirect modes read a little-endian pointer in page 0,
whose high byte is taken from the next location modulo 256: Indirect_X at `d8 + X` modulo 256, Indirect_Y at `d8`, to
whose pointer it then adds Y modulo 65536. -/
def Obligations.IndirectAddressesReadAPointerInPageZero : Prop :=
  ∀ (op d8 : Byte) (s s1 : State), memRead s.pc s = .ok d8 s1 →
    ∃ lox hix loy hiy : Byte, ∃ ex ey : Word,
    (s.byteAt (BitVec.ofNat 16 ((d8.toNat + s.x.toNat) % 256)) = some lox ∧
      s.byteAt (BitVec.ofNat 16 ((d8.toNat + s.x.toNat + 1) % 256)) = some hix ∧
      resolve op .indirectX s = .ok ex s1 ∧ ex.toNat = hix.toNat * 256 + lox.toNat) ∧
    (s.byteAt (BitVec.ofNat 16 d8.toNat) = some loy ∧
      s.byteAt (BitVec.ofNat 16 ((d8.toNat + 1) % 256)) = some hiy ∧
      resolve op .indirectY s = .ok ey s1 ∧ ey.toNat = (hiy.toNat * 256 + loy.toNat + s.y.toNat) % 65536)

/-! ## The lifecycle commands and the host -/

/-- R250: `create` gives the initial state of a configuration: registers, `P` and `PC` zero, `SEQ` halted, no fault, no
log, and memory at its initial contents. The hypothesis is that the model accepts the configuration. -/
def Obligations.CreateGivesTheInitialState : Prop :=
  ∀ c : Config, c.wf → ∃ s, create c = .next s ∧
    (s.a = 0x00 ∧ s.x = 0x00 ∧ s.y = 0x00 ∧ s.p = 0x00 ∧ s.pc = 0x0000) ∧
    (s.seq = .halted ∧ s.fault = none ∧ s.log = [] ∧ s.cfg = c) ∧
    (c.memImpl = .bus → s.ram = c.ramInit ∧ s.rom = c.romInit) ∧ (c.memImpl = .flat → s.flat = c.flatInit)

/-- The model's own choice (log entry 1; U4, U9, U11): `create` refuses a configuration whose table is not well formed,
that has a device wired, or whose initial contents are not in canonical form. -/
def Obligations.UnacceptedConfigurationsAreRefused : Prop :=
  ∀ c : Config, (Table.wf c.dt.rows = false ∨ c.ioDevice = .wired ∨ ¬ Memory.wf ramSize c.ramInit ∨
    ¬ Memory.wf romSize c.romInit ∨ ¬ Memory.wf flatSize c.flatInit) → create c = .refused .configurationNotAccepted

/-- R26, R250, R253: the model's reset state is what `create` with the default parameters and then `reset` leave
(log entry 6). -/
def Obligations.ResetStateIsCreateThenReset : Prop :=
  ∃ s, create Config.standard = .next s ∧ resetCommand s = .next State.reset

/-- R251, R252: `load` puts byte `i` of an image of at most 0x8000 bytes at address 0x8000 + `i`, then the base address
0x8000 into the reset vector (over the image's bytes there), changes no register and no other address of the window or
below it, and neither starts nor logs anything; a longer image is refused. -/
def Obligations.LoadPlacesTheImageAndTheVector : Prop :=
  ∀ (program : List Byte) (s : State), s.seq = .halted → s.memoryInv →
    (program.length ≤ 0x8000 → ∃ t, loadProgram program s = .next t ∧
      (t.a = s.a ∧ t.x = s.x ∧ t.y = s.y ∧ t.p = s.p ∧ t.pc = s.pc ∧ t.seq = s.seq ∧ t.fault = s.fault ∧
        t.log = s.log ∧ t.cfg = s.cfg) ∧
      (∀ k (h : k < program.length), k ≠ 0x7FFC → k ≠ 0x7FFD →
        t.byteAt (BitVec.ofNat 16 (0x8000 + k)) = some program[k]) ∧
      t.byteAt 0xFFFC = some 0x00 ∧ t.byteAt 0xFFFD = some 0x80 ∧
      (∀ addr : Word, (addr.toNat < 0x8000 ∨ 0x8000 + program.length ≤ addr.toNat) → addr ≠ 0xFFFC → addr ≠ 0xFFFD →
        t.byteAt addr = s.byteAt addr)) ∧
    (0x8000 < program.length → loadProgram program s = .refused .imageTooLong)

/-- R253: `reset` zeroes the registers and all of `P`, sets `PC` from the two bytes at 0xFFFC and 0xFFFD, and changes
nothing else. -/
def Obligations.ResetZeroesRegistersAndSamplesTheVector : Prop :=
  ∀ s : State, s.seq = .halted → ∃ lo hi : Byte, ∃ v : Word,
    s.byteAt 0xFFFC = some lo ∧ s.byteAt 0xFFFD = some hi ∧ v.toNat = hi.toNat * 256 + lo.toNat ∧
    resetCommand s = .next { s with a := 0x00, x := 0x00, y := 0x00, p := 0x00, pc := v }

/-- R255: `load_and_run` is `load`, `reset` and `run`, in that order; when the run starts, whatever the registers held,
`A`, `X`, `Y` and `P` are zero, `PC` is 0x8000, and memory outside the image and the vector reads as before. -/
def Obligations.LoadAndRunStartsAtTheImageBase : Prop :=
  ∀ (program : List Byte) (s : State), s.seq = .halted → s.memoryInv → program.length ≤ 0x8000 →
    ∃ s1 s2 s3, loadProgram program s = .next s1 ∧ resetCommand s1 = .next s2 ∧ startRun s2 = .next s3 ∧
      (s3.a = 0x00 ∧ s3.x = 0x00 ∧ s3.y = 0x00 ∧ s3.p = 0x00 ∧ s3.pc = 0x8000 ∧ s3.seq = .running) ∧
      (∀ addr : Word, (addr.toNat < 0x8000 ∨ 0x8000 + program.length ≤ addr.toNat) → addr ≠ 0xFFFC → addr ≠ 0xFFFD →
        s3.byteAt addr = s.byteAt addr) ∧
      ∀ fuel, loadAndRun fuel program s = runLoop fuel s3

/-- R254, R255, R256, U15: in `Halted`, `run` only sets `SEQ` to `Running` and runs, `load` of an image that fits, `reset` and
`load_and_run` are carried out, and each of the host's four accesses is the ordinary one; in `Faulted` and during a run
every command and host access is refused (the refusals' names are the model's, log entry 8). -/
def Obligations.CommandsActOnlyWhileHalted : Prop :=
  ∀ (s : State) (program : List Byte) (fuel : Nat) (addr w : Word) (v : Byte),
    (s.seq = .halted →
      (startRun s = .next { s with seq := .running } ∧
        runCommand fuel s = runLoop fuel { s with seq := .running } ∧ (∃ t, resetCommand s = .next t) ∧
        (program.length ≤ 0x8000 → (∃ t, loadProgram program s = .next t) ∧
          ∃ t, t.seq = .running ∧ loadAndRun fuel program s = runLoop fuel t)) ∧
      hostRead addr s = memRead addr s ∧ hostWrite addr v s = memWrite addr v s ∧
      hostReadWord addr s = readWord addr s ∧ hostWriteWord addr w s = writeWord addr w s) ∧
    (s.seq = .faulted →
      (startRun s = .refused .commandWhenFaulted ∧ runCommand fuel s = .refused .commandWhenFaulted ∧
        resetCommand s = .refused .commandWhenFaulted ∧ loadProgram program s = .refused .commandWhenFaulted ∧
        loadAndRun fuel program s = .refused .commandWhenFaulted) ∧
      hostRead addr s = .stop (.refused .commandWhenFaulted) ∧
      hostWrite addr v s = .stop (.refused .commandWhenFaulted) ∧
      hostReadWord addr s = .stop (.refused .commandWhenFaulted) ∧
      hostWriteWord addr w s = .stop (.refused .commandWhenFaulted)) ∧
    (s.seq = .running →
      (startRun s = .refused .commandWhenRunning ∧ runCommand fuel s = .refused .commandWhenRunning ∧
        resetCommand s = .refused .commandWhenRunning ∧ loadProgram program s = .refused .commandWhenRunning ∧
        loadAndRun fuel program s = .refused .commandWhenRunning) ∧
      hostRead addr s = .stop (.refused .commandWhenRunning) ∧
      hostWrite addr v s = .stop (.refused .commandWhenRunning) ∧
      hostReadWord addr s = .stop (.refused .commandWhenRunning) ∧
      hostWriteWord addr w s = .stop (.refused .commandWhenRunning))

/-! ## Whole-machine rules -/

/-- R205: under `Bus` with no device wired and any well-formed table, every run has ended, in `Halted` or `Faulted`, after
at most 0xA001 steps, whatever the memory holds; under `Flat` there is no bound: with every cell holding 0xE8 (INX, in
any well-formed table) the run never ends. -/
def Obligations.BusRunsEndWithin40961StepsFlatRunsNeedNot : Prop :=
  (∀ s : State, s.cfg.memImpl = .bus → s.cfg.ioDevice = .none → Table.wf s.cfg.dt.rows = true →
    ∃ t, runLoop 0xA001 s = .next t ∧ (t.endedNormally ∨ t.endedAbnormally)) ∧
  (∀ (s : State) (fuel : Nat), s.cfg.memImpl = .flat → Table.wf s.cfg.dt.rows = true → s.seq = .running →
    (∀ addr : Word, Memory.read s.flat addr.toNat = 0xE8) →
    ∃ t, runLoop fuel s = .next t ∧ t.seq = .running)

/-- The invariant of the model holds right after reset: memory in canonical form (the model's own form, log entry 5), `P`
with its reserved bits 0, the latch empty (R20, R26). -/
def Obligations.ResetStateMeetsTheInvariant : Prop := State.reset.Inv

/-- R17, R18, R20, R21, R54: from every state that meets the invariant, a step gives one that meets it: the arrays stay in
canonical form and inside their sizes, the memory that is not attached and the log under `Flat` stay empty, the
reserved bits of `P` stay 0 with Z and N never both 1, and the latch holds a condition exactly in `Faulted`. -/
def Obligations.StepKeepsTheInvariant : Prop := ∀ s t : State, s.Inv → step s = .next t → t.Inv

/-- The invariant (R17, R18, R20, R21; the canonical form of memory is the model's, log entry 5) holds after `create`, and
every command of the host (R250 to R255) and each of its four accesses (R256) keeps it, also where an access is fatal: a
word write from the RAM window's last address 0x1FFF is cut by the I/O window with its first byte written (R56), and
the state it leaves meets the invariant. -/
def Obligations.CommandsKeepTheInvariant : Prop :=
  (∀ (c : Config) (t : State), create c = .next t → t.Inv) ∧
  ∀ s : State, s.Inv →
    (∀ program t, loadProgram program s = .next t → t.Inv) ∧ (∀ t, resetCommand s = .next t → t.Inv) ∧
    (∀ t, startRun s = .next t → t.Inv) ∧ (∀ fuel t, runCommand fuel s = .next t → t.Inv) ∧
    (∀ fuel program t, loadAndRun fuel program s = .next t → t.Inv) ∧
    (∀ addr b t, hostRead addr s = .ok b t → t.Inv) ∧ (∀ addr t, hostRead addr s = .stop (.next t) → t.Inv) ∧
    (∀ addr v t, hostWrite addr v s = .ok () t → t.Inv) ∧
    (∀ addr v t, hostWrite addr v s = .stop (.next t) → t.Inv) ∧
    (∀ addr w t, hostReadWord addr s = .ok w t → t.Inv) ∧
    (∀ addr t, hostReadWord addr s = .stop (.next t) → t.Inv) ∧
    (∀ addr w t, hostWriteWord addr w s = .ok () t → t.Inv) ∧
    (∀ addr w t, hostWriteWord addr w s = .stop (.next t) → t.Inv) ∧
    (∀ w, s.seq = .halted → s.cfg.memImpl = .bus → s.cfg.ioDevice = .none →
      ∃ t, hostWriteWord 0x1FFF w s = .stop (.next t) ∧ t.Inv ∧ t.byteAt 0x1FFF = some (lowByte w) ∧
        t.fault = some (.unimplementedDevice .write 0x2000 0x2000))

/-- R82, R4: the dispatch table and the other parameters are configuration: no step changes them. -/
def Obligations.StepsNeverChangeTheConfiguration : Prop := ∀ s t : State, step s = .next t → t.cfg = s.cfg

/-- R23: the log is append-only, no rule reads it, and it influences nothing: a step from a state that differs in the log
only appends the same events and is otherwise the same. -/
def Obligations.LogIsAppendOnlyAndNeverRead : Prop :=
  ∀ (s t : State) (l : List LogEvent), step s = .next t →
    ∃ events, t.log = s.log ++ events ∧ step { s with log := l } = .next { t with log := l ++ events }

/-- R100, R196, R227, with R112's order of the operand reads: an instruction whose operand bytes reach from the RAM window
into the I/O window (its opcode at 0x1FFF, or at 0x1FFE with two operand bytes) is fatal by the resolver's, or for mode
Immediate the operation's, read of 0x2000; the opcode byte is consumed and nothing else changes. -/
def Obligations.OperandByteInIoWindowIsFatal : Prop :=
  ∀ (s : State) (op : Byte) (e : Entry), s.seq = .running → s.cfg.memImpl = .bus → s.cfg.ioDevice = .none →
    s.byteAt s.pc = some op → s.cfg.dt.find op = some e → e.wf = true →
    (s.pc = 0x1FFF → 1 ≤ e.width → step s = .next { s with
      pc := 0x2000, fault := some (.unimplementedDevice .read 0x2000 0x2000), seq := .faulted }) ∧
    (s.pc = 0x1FFE → e.width = 2 → step s = .next { s with
      pc := 0x1FFF, fault := some (.unimplementedDevice .read 0x2000 0x2000), seq := .faulted })
end

