-- ==== Sys2Proof/Laws/State.lean ====
section
/-! SUPPORT. One lemma per field per update of the state, so that no proof unfolds a record update. -/

namespace Sys2Proof.Machine

/-! ## SetZN, the program counter, fatal conditions, the log -/

@[simp] theorem State.setZN_a (s : State) (v : Byte) : (s.setZN v).a = s.a := rfl
@[simp] theorem State.setZN_x (s : State) (v : Byte) : (s.setZN v).x = s.x := rfl
@[simp] theorem State.setZN_y (s : State) (v : Byte) : (s.setZN v).y = s.y := rfl
@[simp] theorem State.setZN_p (s : State) (v : Byte) : (s.setZN v).p = statusZN v s.p := rfl
@[simp] theorem State.setZN_pc (s : State) (v : Byte) : (s.setZN v).pc = s.pc := rfl
@[simp] theorem State.setZN_seq (s : State) (v : Byte) : (s.setZN v).seq = s.seq := rfl
@[simp] theorem State.setZN_fault (s : State) (v : Byte) : (s.setZN v).fault = s.fault := rfl
@[simp] theorem State.setZN_ram (s : State) (v : Byte) : (s.setZN v).ram = s.ram := rfl
@[simp] theorem State.setZN_rom (s : State) (v : Byte) : (s.setZN v).rom = s.rom := rfl
@[simp] theorem State.setZN_flat (s : State) (v : Byte) : (s.setZN v).flat = s.flat := rfl
@[simp] theorem State.setZN_log (s : State) (v : Byte) : (s.setZN v).log = s.log := rfl
@[simp] theorem State.setZN_cfg (s : State) (v : Byte) : (s.setZN v).cfg = s.cfg := rfl

@[simp] theorem State.advance_a (s : State) (n : Nat) : (s.advance n).a = s.a := rfl
@[simp] theorem State.advance_x (s : State) (n : Nat) : (s.advance n).x = s.x := rfl
@[simp] theorem State.advance_y (s : State) (n : Nat) : (s.advance n).y = s.y := rfl
@[simp] theorem State.advance_p (s : State) (n : Nat) : (s.advance n).p = s.p := rfl
@[simp] theorem State.advance_pc (s : State) (n : Nat) : (s.advance n).pc = s.pc + BitVec.ofNat 16 n := rfl
@[simp] theorem State.advance_seq (s : State) (n : Nat) : (s.advance n).seq = s.seq := rfl
@[simp] theorem State.advance_fault (s : State) (n : Nat) : (s.advance n).fault = s.fault := rfl
@[simp] theorem State.advance_ram (s : State) (n : Nat) : (s.advance n).ram = s.ram := rfl
@[simp] theorem State.advance_rom (s : State) (n : Nat) : (s.advance n).rom = s.rom := rfl
@[simp] theorem State.advance_flat (s : State) (n : Nat) : (s.advance n).flat = s.flat := rfl
@[simp] theorem State.advance_log (s : State) (n : Nat) : (s.advance n).log = s.log := rfl
@[simp] theorem State.advance_cfg (s : State) (n : Nat) : (s.advance n).cfg = s.cfg := rfl

@[simp] theorem State.raise_a (s : State) (f : Fatal) : (s.raise f).a = s.a := rfl
@[simp] theorem State.raise_x (s : State) (f : Fatal) : (s.raise f).x = s.x := rfl
@[simp] theorem State.raise_y (s : State) (f : Fatal) : (s.raise f).y = s.y := rfl
@[simp] theorem State.raise_p (s : State) (f : Fatal) : (s.raise f).p = s.p := rfl
@[simp] theorem State.raise_pc (s : State) (f : Fatal) : (s.raise f).pc = s.pc := rfl
@[simp] theorem State.raise_seq (s : State) (f : Fatal) : (s.raise f).seq = .faulted := rfl
@[simp] theorem State.raise_fault (s : State) (f : Fatal) : (s.raise f).fault = some f := rfl
@[simp] theorem State.raise_ram (s : State) (f : Fatal) : (s.raise f).ram = s.ram := rfl
@[simp] theorem State.raise_rom (s : State) (f : Fatal) : (s.raise f).rom = s.rom := rfl
@[simp] theorem State.raise_flat (s : State) (f : Fatal) : (s.raise f).flat = s.flat := rfl
@[simp] theorem State.raise_log (s : State) (f : Fatal) : (s.raise f).log = s.log := rfl
@[simp] theorem State.raise_cfg (s : State) (f : Fatal) : (s.raise f).cfg = s.cfg := rfl

@[simp] theorem State.logged_a (s : State) (e : LogEvent) : (s.logged e).a = s.a := rfl
@[simp] theorem State.logged_x (s : State) (e : LogEvent) : (s.logged e).x = s.x := rfl
@[simp] theorem State.logged_y (s : State) (e : LogEvent) : (s.logged e).y = s.y := rfl
@[simp] theorem State.logged_p (s : State) (e : LogEvent) : (s.logged e).p = s.p := rfl
@[simp] theorem State.logged_pc (s : State) (e : LogEvent) : (s.logged e).pc = s.pc := rfl
@[simp] theorem State.logged_seq (s : State) (e : LogEvent) : (s.logged e).seq = s.seq := rfl
@[simp] theorem State.logged_fault (s : State) (e : LogEvent) : (s.logged e).fault = s.fault := rfl
@[simp] theorem State.logged_ram (s : State) (e : LogEvent) : (s.logged e).ram = s.ram := rfl
@[simp] theorem State.logged_rom (s : State) (e : LogEvent) : (s.logged e).rom = s.rom := rfl
@[simp] theorem State.logged_flat (s : State) (e : LogEvent) : (s.logged e).flat = s.flat := rfl
@[simp] theorem State.logged_log (s : State) (e : LogEvent) : (s.logged e).log = s.log ++ [e] := rfl
@[simp] theorem State.logged_cfg (s : State) (e : LogEvent) : (s.logged e).cfg = s.cfg := rfl

/-! ## Registers -/

@[simp] theorem State.setReg_a_a (s : State) (v : Byte) : (s.setReg .a v).a = v := rfl
@[simp] theorem State.setReg_a_x (s : State) (v : Byte) : (s.setReg .a v).x = s.x := rfl
@[simp] theorem State.setReg_a_y (s : State) (v : Byte) : (s.setReg .a v).y = s.y := rfl
@[simp] theorem State.setReg_x_a (s : State) (v : Byte) : (s.setReg .x v).a = s.a := rfl
@[simp] theorem State.setReg_x_x (s : State) (v : Byte) : (s.setReg .x v).x = v := rfl
@[simp] theorem State.setReg_x_y (s : State) (v : Byte) : (s.setReg .x v).y = s.y := rfl
@[simp] theorem State.setReg_y_a (s : State) (v : Byte) : (s.setReg .y v).a = s.a := rfl
@[simp] theorem State.setReg_y_x (s : State) (v : Byte) : (s.setReg .y v).x = s.x := rfl
@[simp] theorem State.setReg_y_y (s : State) (v : Byte) : (s.setReg .y v).y = v := rfl
@[simp] theorem State.setReg_p (s : State) (r : Reg) (v : Byte) : (s.setReg r v).p = s.p := by cases r <;> rfl
@[simp] theorem State.setReg_pc (s : State) (r : Reg) (v : Byte) : (s.setReg r v).pc = s.pc := by cases r <;> rfl
@[simp] theorem State.setReg_seq (s : State) (r : Reg) (v : Byte) : (s.setReg r v).seq = s.seq := by cases r <;> rfl
@[simp] theorem State.setReg_fault (s : State) (r : Reg) (v : Byte) : (s.setReg r v).fault = s.fault := by cases r <;> rfl
@[simp] theorem State.setReg_ram (s : State) (r : Reg) (v : Byte) : (s.setReg r v).ram = s.ram := by cases r <;> rfl
@[simp] theorem State.setReg_rom (s : State) (r : Reg) (v : Byte) : (s.setReg r v).rom = s.rom := by cases r <;> rfl
@[simp] theorem State.setReg_flat (s : State) (r : Reg) (v : Byte) : (s.setReg r v).flat = s.flat := by cases r <;> rfl
@[simp] theorem State.setReg_log (s : State) (r : Reg) (v : Byte) : (s.setReg r v).log = s.log := by cases r <;> rfl
@[simp] theorem State.setReg_cfg (s : State) (r : Reg) (v : Byte) : (s.setReg r v).cfg = s.cfg := by cases r <;> rfl

/-- A register reads back what was written to it, and the others are untouched (R10). -/
theorem State.reg_setReg (s : State) (r q : Reg) (v : Byte) :
    (s.setReg r v).reg q = if q = r then v else s.reg q := by
  cases r <;> cases q <;> rfl

@[simp] theorem State.reg_a (s : State) : s.reg .a = s.a := rfl
@[simp] theorem State.reg_x (s : State) : s.reg .x = s.x := rfl
@[simp] theorem State.reg_y (s : State) : s.reg .y = s.y := rfl

/-! ## Cells -/

@[simp] theorem State.writeCell_a (s : State) (c : CellRef) (v : Byte) : (s.writeCell c v).a = s.a := by cases c <;> rfl
@[simp] theorem State.writeCell_x (s : State) (c : CellRef) (v : Byte) : (s.writeCell c v).x = s.x := by cases c <;> rfl
@[simp] theorem State.writeCell_y (s : State) (c : CellRef) (v : Byte) : (s.writeCell c v).y = s.y := by cases c <;> rfl
@[simp] theorem State.writeCell_p (s : State) (c : CellRef) (v : Byte) : (s.writeCell c v).p = s.p := by cases c <;> rfl
@[simp] theorem State.writeCell_pc (s : State) (c : CellRef) (v : Byte) : (s.writeCell c v).pc = s.pc := by cases c <;> rfl
@[simp] theorem State.writeCell_seq (s : State) (c : CellRef) (v : Byte) : (s.writeCell c v).seq = s.seq := by cases c <;> rfl
@[simp] theorem State.writeCell_fault (s : State) (c : CellRef) (v : Byte) : (s.writeCell c v).fault = s.fault := by cases c <;> rfl
@[simp] theorem State.writeCell_log (s : State) (c : CellRef) (v : Byte) : (s.writeCell c v).log = s.log := by cases c <;> rfl
@[simp] theorem State.writeCell_cfg (s : State) (c : CellRef) (v : Byte) : (s.writeCell c v).cfg = s.cfg := by cases c <;> rfl
@[simp] theorem State.writeCell_reg (s : State) (c : CellRef) (v : Byte) (r : Reg) :
    (s.writeCell c v).reg r = s.reg r := by cases c <;> rfl

/-! ## The effect of a load -/

@[simp] theorem State.loaded_pc (s : State) (r : Reg) (v : Byte) (w : Nat) : (s.loaded r v w).pc = s.pc + BitVec.ofNat 16 w := by cases r <;> rfl
@[simp] theorem State.loaded_seq (s : State) (r : Reg) (v : Byte) (w : Nat) : (s.loaded r v w).seq = s.seq := by cases r <;> rfl
@[simp] theorem State.loaded_fault (s : State) (r : Reg) (v : Byte) (w : Nat) : (s.loaded r v w).fault = s.fault := by cases r <;> rfl
@[simp] theorem State.loaded_ram (s : State) (r : Reg) (v : Byte) (w : Nat) : (s.loaded r v w).ram = s.ram := by cases r <;> rfl
@[simp] theorem State.loaded_rom (s : State) (r : Reg) (v : Byte) (w : Nat) : (s.loaded r v w).rom = s.rom := by cases r <;> rfl
@[simp] theorem State.loaded_flat (s : State) (r : Reg) (v : Byte) (w : Nat) : (s.loaded r v w).flat = s.flat := by cases r <;> rfl
@[simp] theorem State.loaded_log (s : State) (r : Reg) (v : Byte) (w : Nat) : (s.loaded r v w).log = s.log := by cases r <;> rfl
@[simp] theorem State.loaded_cfg (s : State) (r : Reg) (v : Byte) (w : Nat) : (s.loaded r v w).cfg = s.cfg := by cases r <;> rfl
@[simp] theorem State.loaded_p (s : State) (r : Reg) (v : Byte) (w : Nat) :
    (s.loaded r v w).p = statusZN v s.p := by cases r <;> rfl
theorem State.loaded_reg (s : State) (r q : Reg) (v : Byte) (w : Nat) :
    (s.loaded r v w).reg q = if q = r then v else s.reg q := by cases r <;> cases q <;> rfl

/-! ## Results -/

@[simp] theorem Res.bind_ok {α β : Type} (v : α) (s : State) (k : α → State → Res β) :
    (Res.ok v s).bind k = k v s := rfl
@[simp] theorem Res.bind_stop {α β : Type} (o : Outcome) (k : α → State → Res β) :
    (Res.stop o).bind k = .stop o := rfl
@[simp] theorem Res.finish_ok {α : Type} (v : α) (s : State) (k : α → State → Outcome) :
    (Res.ok v s).finish k = k v s := rfl
@[simp] theorem Res.finish_stop {α : Type} (o : Outcome) (k : α → State → Outcome) :
    (Res.stop o).finish k = o := rfl
@[simp] theorem Res.value_ok {α : Type} (v : α) (s : State) : (Res.ok v s).value = some v := rfl
@[simp] theorem Res.value_stop {α : Type} (o : Outcome) : (Res.stop o : Res α).value = none := rfl
theorem Res.bind_finish {α β : Type} (r : Res α) (k : α → State → Res β) (h : β → State → Outcome) :
    (r.bind k).finish h = r.finish fun v s => (k v s).finish h := by cases r <;> rfl

end Sys2Proof.Machine
end

