-- ==== Sys2Proof/Laws/Flags.lean ====
section
/-! SUPPORT. What `SetZN` does to the bits of `P`, said once (R18). -/

namespace Sys2Proof.Machine

/-- `SetZN` leaves every bit but Z and N as it was. -/
theorem statusZN_other (v p : Byte) {k : Nat} (h1 : k ≠ 1) (h7 : k ≠ 7) :
    (statusZN v p).getLsbD k = p.getLsbD k := by
  by_cases hk : k < 8
  · have : k = 0 ∨ k = 2 ∨ k = 3 ∨ k = 4 ∨ k = 5 ∨ k = 6 := by omega
    rcases this with rfl | rfl | rfl | rfl | rfl | rfl <;>
      (simp only [statusZN, BitVec.getLsbD_or, BitVec.getLsbD_and]; split <;> simp)
  · rw [BitVec.getLsbD_of_ge _ _ (by omega), BitVec.getLsbD_of_ge _ _ (by omega)]

/-- Z after `SetZN(v)`. -/
theorem flagZ_statusZN (v p : Byte) : flagZ (statusZN v p) = decide (v = 0) := by
  simp only [flagZ, statusZN, BitVec.getLsbD_or, BitVec.getLsbD_and]
  split <;> simp_all

/-- N after `SetZN(v)`. -/
theorem flagN_statusZN (v p : Byte) : flagN (statusZN v p) = v.getLsbD 7 := by
  simp only [flagN, statusZN, BitVec.getLsbD_or, BitVec.getLsbD_and]
  split <;> simp_all

/-- From a status with no reserved bit set, `SetZN` gives one of three values: none, Z, or N. -/
theorem statusZN_cases (v : Byte) {p : Byte} (h : p = 0x00 ∨ p = 0x02 ∨ p = 0x80) :
    statusZN v p = 0x00 ∨ statusZN v p = 0x02 ∨ statusZN v p = 0x80 := by
  have hz : p &&& 0x7D = 0x00 := by rcases h with rfl | rfl | rfl <;> rfl
  have hm : v &&& 0x80 = 0x00 ∨ v &&& 0x80 = 0x80 := by revert v; decide
  rw [statusZN, hz]
  by_cases hv : v = 0x00
  · subst hv
    exact .inr (.inl rfl)
  · rw [if_neg hv]
    rcases hm with hm | hm <;> rw [hm] <;> decide

end Sys2Proof.Machine
end

