-- ==== Sys2Proof/Laws/Memory.lean ====
section
/-! SUPPORT. The laws of a byte array in canonical form: read after write, and that a write keeps the form. -/

namespace Sys2Proof

@[simp] theorem Memory.read_nil (k : Nat) : Memory.read [] k = Memory.unlisted := rfl

theorem Memory.wf_nil (size : Nat) : Memory.wf size [] := by simp [Memory.wf]

theorem Memory.wf_tail {size j : Nat} {b : Byte} {t : Memory} (h : Memory.wf size ((j, b) :: t)) :
    Memory.wf size t :=
  ⟨h.1.of_cons, fun c hc => h.2 c (List.mem_cons_of_mem _ hc)⟩

/-- An index below every listed one reads as an unlisted cell. -/
theorem Memory.read_of_lt {k : Nat} {m : Memory} (h : ∀ c ∈ m, k < c.1) : Memory.read m k = Memory.unlisted := by
  induction m with
  | nil => rfl
  | cons c t ih =>
    obtain ⟨j, b⟩ := c
    have hj : k < j := h (j, b) (by simp)
    rw [Memory.read, if_neg (by omega)]
    exact ih fun c hc => h c (by simp [hc])

/-- Every cell a write leaves listed is the written one or was listed before. -/
theorem Memory.mem_write {m : Memory} {k : Nat} {v : Byte} {c : Host.Cell} (h : c ∈ Memory.write m k v) :
    (c = (k, v) ∧ v ≠ Memory.unlisted) ∨ c ∈ m := by
  induction m with
  | nil => simp only [Memory.write] at h; split at h <;> simp_all
  | cons d t ih =>
    obtain ⟨j, b⟩ := d
    simp only [Memory.write] at h
    split at h
    · split at h <;> simp_all
    · split at h
      · split at h <;> simp_all <;> tauto
      · simp only [List.mem_cons] at h ⊢
        rcases h with h | h
        · exact .inr (.inl h)
        · rcases ih h with h | h <;> simp_all

/-- A read after a write to the same index gives the value written. -/
theorem Memory.read_write_same {size : Nat} {m : Memory} (h : Memory.wf size m) (k : Nat) (v : Byte) :
    Memory.read (Memory.write m k v) k = v := by
  induction m with
  | nil => simp only [Memory.write]; split <;> simp_all [Memory.read]
  | cons d t ih =>
    obtain ⟨j, b⟩ := d
    have hlt : ∀ c ∈ t, j < c.1 := fun c hc => (List.pairwise_cons.1 h.1).1 c hc
    simp only [Memory.write]
    split
    · rename_i hk
      split
      · rename_i hv
        rw [hv]
        refine Memory.read_of_lt fun c hc => ?_
        rcases List.mem_cons.1 hc with rfl | hc
        · exact hk
        · exact lt_trans hk (hlt c hc)
      · simp [Memory.read]
    · split
      · rename_i hk
        subst hk
        split
        · rename_i hv
          rw [hv]
          exact Memory.read_of_lt hlt
        · simp [Memory.read]
      · rename_i hk
        rw [Memory.read, if_neg (fun e => hk e.symm)]
        exact ih (Memory.wf_tail h)

/-- A write leaves every other index alone. -/
theorem Memory.read_write_other {m : Memory} {j k : Nat} (v : Byte) (h : j ≠ k) :
    Memory.read (Memory.write m k v) j = Memory.read m j := by
  induction m with
  | nil => simp only [Memory.write]; split <;> simp [Memory.read, Ne.symm h]
  | cons d t ih =>
    obtain ⟨i, b⟩ := d
    simp only [Memory.write]
    split
    · split
      · rfl
      · rw [Memory.read, if_neg (Ne.symm h)]
    · split
      · rename_i hk
        subst hk
        split
        · rw [Memory.read, if_neg (Ne.symm h)]
        · rw [Memory.read, Memory.read, if_neg (Ne.symm h), if_neg (Ne.symm h)]
      · simp only [Memory.read, ih]

/-- A write below the array's size keeps the canonical form. -/
theorem Memory.write_wf {size : Nat} {m : Memory} (h : Memory.wf size m) {k : Nat} (hk : k < size) (v : Byte) :
    Memory.wf size (Memory.write m k v) := by
  refine ⟨?_, fun c hc => ?_⟩
  · induction m with
    | nil => simp only [Memory.write]; split <;> simp
    | cons d t ih =>
      obtain ⟨j, b⟩ := d
      have hp := List.pairwise_cons.1 h.1
      simp only [Memory.write]
      split
      · rename_i hlt
        split
        · exact h.1
        · refine List.pairwise_cons.2 ⟨fun c hc => ?_, h.1⟩
          rcases List.mem_cons.1 hc with rfl | hc
          · exact hlt
          · exact lt_trans hlt (hp.1 c hc)
      · split
        · rename_i he
          subst he
          split
          · exact hp.2
          · exact List.pairwise_cons.2 ⟨fun c hc => hp.1 c hc, hp.2⟩
        · refine List.pairwise_cons.2 ⟨fun c hc => ?_, ih (Memory.wf_tail h)⟩
          rcases Memory.mem_write hc with ⟨rfl, -⟩ | hc
          · show j < k
            omega
          · exact hp.1 c hc
  · rcases Memory.mem_write hc with ⟨rfl, hv⟩ | hc
    · exact ⟨hk, hv⟩
    · exact h.2 c hc

/-- Canonical memories that read alike are equal data. -/
theorem Memory.eq_of_read_eq {size : Nat} {m n : Memory} (hm : Memory.wf size m) (hn : Memory.wf size n)
    (h : ∀ k, Memory.read m k = Memory.read n k) : m = n := by
  induction m generalizing n with
  | nil =>
    cases n with
    | nil => rfl
    | cons c t =>
      obtain ⟨j, b⟩ := c
      have := h j
      simp only [Memory.read, if_true] at this
      exact absurd this.symm (hn.2 (j, b) (by simp)).2
  | cons c t ih =>
    obtain ⟨j, b⟩ := c
    have hlt := (List.pairwise_cons.1 hm.1).1
    have hb : b ≠ Memory.unlisted := (hm.2 (j, b) (by simp)).2
    cases n with
    | nil =>
      have := h j
      simp only [Memory.read, if_true] at this
      exact absurd this hb
    | cons d u =>
      obtain ⟨i, e⟩ := d
      have hlt' := (List.pairwise_cons.1 hn.1).1
      have he : e ≠ Memory.unlisted := (hn.2 (i, e) (by simp)).2
      have hji : j = i := by
        rcases lt_trichotomy j i with hl | hl | hl
        · have h1 := h j
          rw [Memory.read, if_pos rfl, Memory.read_of_lt] at h1
          · exact absurd h1 hb
          · intro c hc
            rcases List.mem_cons.1 hc with rfl | hc
            · exact hl
            · exact lt_trans hl (hlt' c hc)
        · exact hl
        · have h1 := h i
          rw [Memory.read_of_lt, Memory.read, if_pos rfl] at h1
          · exact absurd h1.symm he
          · intro c hc
            rcases List.mem_cons.1 hc with rfl | hc
            · exact hl
            · exact lt_trans hl (hlt c hc)
      subst hji
      have hbe : b = e := by simpa [Memory.read] using h j
      subst hbe
      refine congrArg _ (ih (Memory.wf_tail hm) (Memory.wf_tail hn) fun k => ?_)
      by_cases hk : j = k
      · subst hk
        rw [Memory.read_of_lt hlt, Memory.read_of_lt hlt']
      · simpa [Memory.read, hk] using h k

end Sys2Proof
end

