-- ==== Sys2Proof/Laws/Ops.lean ====
section
/-! SUPPORT. What each shared operation can do, said once: the address decoder, the byte and word accesses, the
effective address, and which shared operation each instruction is. -/

namespace Sys2Proof.Machine

/-! ## The decoder by region -/

theorem target_flat {s : State} (h : s.cfg.memImpl = .flat) (addr : Word) :
    s.target addr = .cell (.flat addr.toNat) := by simp [State.target, decodeAddress, h]

theorem target_ram {s : State} (h : s.cfg.memImpl = .bus) {addr : Word} (ha : addr.toNat < 0x2000) :
    s.target addr = .cell (.ram (addr &&& 0x07FF).toNat) := by simp [State.target, decodeAddress, h, ha]

theorem target_io {s : State} (h : s.cfg.memImpl = .bus) {addr : Word} (h1 : 0x2000 ≤ addr.toNat)
    (h2 : addr.toNat < 0x4000) : s.target addr = .ioWindow (addr &&& 0x2007) := by
  simp [State.target, decodeAddress, h, Nat.not_lt.2 h1, h2]

theorem target_unmapped {s : State} (h : s.cfg.memImpl = .bus) {addr : Word} (h1 : 0x4000 ≤ addr.toNat)
    (h2 : addr.toNat < 0x8000) : s.target addr = .unmapped := by
  simp [State.target, decodeAddress, h, Nat.not_lt.2 h1, h2, Nat.not_lt.2 (le_trans (by decide : 0x2000 ≤ 0x4000) h1)]

theorem target_rom {s : State} (h : s.cfg.memImpl = .bus) {addr : Word} (h1 : 0x8000 ≤ addr.toNat) :
    s.target addr = .cell (.rom (addr.toNat - 0x8000)) := by
  have h2 : ¬ addr.toNat < 0x2000 := by omega
  have h3 : ¬ addr.toNat < 0x4000 := by omega
  have h4 : ¬ addr.toNat < 0x8000 := by omega
  have h5 : (addr - 0x8000).toNat = addr.toNat - 0x8000 := by bv_omega
  simp only [State.target, decodeAddress, h, h2, h3, h4, if_false, h5]

/-- The target of an address depends on the memory implementation only. -/
theorem target_congr {s t : State} (h : t.cfg = s.cfg) (addr : Word) : t.target addr = s.target addr := by
  simp [State.target, h]

/-- A decoded cell lies inside its array, in an array of the memory that is attached. -/
theorem target_cell_bound {s : State} {addr : Word} {c : CellRef} (h : s.target addr = .cell c) :
    match c with
    | .ram i => i < ramSize ∧ s.cfg.memImpl = .bus
    | .rom i => i < romSize ∧ s.cfg.memImpl = .bus
    | .flat i => i < flatSize ∧ s.cfg.memImpl = .flat := by
  cases hm : s.cfg.memImpl with
  | flat =>
    rw [target_flat hm] at h
    cases h
    exact ⟨addr.isLt, rfl⟩
  | bus =>
    by_cases h1 : addr.toNat < 0x2000
    · rw [target_ram hm h1] at h
      cases h
      refine ⟨?_, rfl⟩
      have : (addr &&& 0x07FF).toNat ≤ 0x07FF := by
        rw [BitVec.toNat_and]; exact Nat.and_le_right
      exact Nat.lt_of_le_of_lt this (by decide)
    · by_cases h2 : addr.toNat < 0x4000
      · rw [target_io hm (by omega) h2] at h
        cases h
      · by_cases h3 : addr.toNat < 0x8000
        · rw [target_unmapped hm (by omega) h3] at h
          cases h
        · rw [target_rom hm (by omega)] at h
          cases h
          have := addr.isLt
          exact ⟨by simp only [romSize]; omega, rfl⟩

/-- Every zero-page address has a backing cell, under either memory. -/
theorem target_zeroPage (s : State) (b : Byte) : ∃ c, s.target (zext16 b) = .cell c := by
  cases hm : s.cfg.memImpl with
  | flat => exact ⟨_, target_flat hm _⟩
  | bus =>
    refine ⟨_, target_ram hm ?_⟩
    have := b.isLt
    simp only [zext16, BitVec.toNat_setWidth]
    omega

/-! ## Byte accesses -/

theorem memRead_cell {s : State} {addr : Word} {c : CellRef} (h : s.target addr = .cell c) :
    memRead addr s = .ok (s.readCell c) s := by simp [memRead, h]

theorem memRead_unmapped {s : State} {addr : Word} (h : s.target addr = .unmapped) :
    memRead addr s = .ok 0x00 (s.logged (.unmappedRead addr)) := by simp [memRead, h]

theorem memRead_io {s : State} {addr m : Word} (h : s.target addr = .ioWindow m) :
    memRead addr s = .stop (ioAccess .read addr m s) := by simp [memRead, h]

theorem memWrite_cell {s : State} {addr : Word} {c : CellRef} (h : s.target addr = .cell c) (v : Byte) :
    memWrite addr v s = .ok () (s.writeCell c v) := by simp [memWrite, h]

theorem memWrite_unmapped {s : State} {addr : Word} (h : s.target addr = .unmapped) (v : Byte) :
    memWrite addr v s = .ok () (s.logged (.unmappedWrite addr v)) := by simp [memWrite, h]

theorem memWrite_io {s : State} {addr m : Word} (h : s.target addr = .ioWindow m) (v : Byte) :
    memWrite addr v s = .stop (ioAccess .write addr m s) := by simp [memWrite, h]

theorem ioAccess_none {s : State} (h : s.cfg.ioDevice = .none) (k : AccessKind) (addr m : Word) :
    ioAccess k addr m s = .next (s.raise (.unimplementedDevice k addr m)) := by simp [ioAccess, h]

theorem ioAccess_wired {s : State} (h : s.cfg.ioDevice = .wired) (k : AccessKind) (addr m : Word) :
    ioAccess k addr m s = .refused .deviceWired := by simp [ioAccess, h]

/-- All a byte read can do: read a cell and leave the state, or read 0x00 in the unmapped range and log it. -/
theorem memRead_ok {s t : State} {addr : Word} {v : Byte} (h : memRead addr s = .ok v t) :
    (∃ c, s.target addr = .cell c ∧ v = s.readCell c ∧ t = s) ∨
      (s.target addr = .unmapped ∧ v = 0x00 ∧ t = s.logged (.unmappedRead addr)) := by
  simp only [memRead] at h
  split at h
  · rename_i c hc
    cases h
    exact .inl ⟨c, hc, rfl, rfl⟩
  · cases h
  · rename_i hc
    cases h
    exact .inr ⟨hc, rfl, rfl⟩

/-- All a byte write can do: write a cell, or log the write in the unmapped range. -/
theorem memWrite_ok {s t : State} {addr : Word} {v : Byte} (h : memWrite addr v s = .ok () t) :
    (∃ c, s.target addr = .cell c ∧ t = s.writeCell c v) ∨
      (s.target addr = .unmapped ∧ t = s.logged (.unmappedWrite addr v)) := by
  simp only [memWrite] at h
  split at h
  · rename_i c hc
    cases h
    exact .inl ⟨c, hc, rfl⟩
  · cases h
  · rename_i hc
    cases h
    exact .inr ⟨hc, rfl⟩

/-- A byte read that ends the step is an access to the I/O window. -/
theorem memRead_stop {s : State} {addr : Word} {o : Outcome} (h : memRead addr s = .stop o) :
    ∃ m, s.target addr = .ioWindow m ∧ o = ioAccess .read addr m s := by
  simp only [memRead] at h
  split at h
  · cases h
  · rename_i m hm
    cases h
    exact ⟨m, hm, rfl⟩
  · cases h

/-- A byte write that ends the step is an access to the I/O window. -/
theorem memWrite_stop {s : State} {addr : Word} {v : Byte} {o : Outcome} (h : memWrite addr v s = .stop o) :
    ∃ m, s.target addr = .ioWindow m ∧ o = ioAccess .write addr m s := by
  simp only [memWrite] at h
  split at h
  · cases h
  · rename_i m hm
    cases h
    exact ⟨m, hm, rfl⟩
  · cases h

/-- A byte read changes the log at most, and only by adding to it. -/
theorem memRead_sameButLog {s t : State} {addr : Word} {v : Byte} (h : memRead addr s = .ok v t) :
    s.sameButLog t ∧ s.log <+: t.log := by
  rcases memRead_ok h with ⟨c, -, -, rfl⟩ | ⟨-, -, rfl⟩
  · exact ⟨rfl, List.prefix_refl _⟩
  · exact ⟨rfl, List.prefix_append _ _⟩

/-- The byte an address reads as, by region. -/
theorem byteAt_cell {s : State} {addr : Word} {c : CellRef} (h : s.target addr = .cell c) :
    s.byteAt addr = some (s.readCell c) := by simp [State.byteAt, memRead_cell h]

/-- What an address reads as depends on the arrays and the memory implementation only. -/
theorem byteAt_congr {s t : State} (hr : t.ram = s.ram) (hm : t.rom = s.rom) (hf : t.flat = s.flat)
    (hc : t.cfg = s.cfg) (addr : Word) : t.byteAt addr = s.byteAt addr := by
  have ht := target_congr hc addr
  simp only [State.byteAt, memRead, ht]
  cases s.target addr with
  | cell c => cases c <;> simp [State.readCell, hr, hm, hf]
  | ioWindow m => rfl
  | unmapped => rfl

/-! ## Cells -/

/-- A cell reads back what was written to it, in a state whose memory is in canonical form. -/
theorem readCell_writeCell_same {s : State} (h : s.memoryInv) (c : CellRef) (v : Byte) :
    (s.writeCell c v).readCell c = v := by
  obtain ⟨⟨hr, hm, hf⟩, -⟩ := h
  cases c with
  | ram i => exact Memory.read_write_same hr i v
  | rom i => exact Memory.read_write_same hm i v
  | flat i => exact Memory.read_write_same hf i v

/-- A write to one cell leaves every other cell alone. -/
theorem readCell_writeCell_other (s : State) {c d : CellRef} (v : Byte) (h : d ≠ c) :
    (s.writeCell c v).readCell d = s.readCell d := by
  cases c <;> cases d <;> simp only [State.writeCell, State.readCell] <;>
    exact Memory.read_write_other v (fun e => h (by rw [e]))

/-- An address that does not share the written cell reads as before. -/
theorem byteAt_writeCell_other {s : State} {addr other : Word} {c : CellRef} (hc : s.target addr = .cell c)
    (h : ¬ s.sameCell addr other) (v : Byte) : (s.writeCell c v).byteAt other = s.byteAt other := by
  have ht : (s.writeCell c v).target other = s.target other := target_congr (State.writeCell_cfg s c v) other
  simp only [State.byteAt, memRead, ht]
  cases hd : s.target other with
  | cell d =>
    have hne : d ≠ c := fun e => h ⟨c, hc, by rw [hd, e]⟩
    simp only [Res.value_ok, readCell_writeCell_other s v hne]
  | ioWindow m => rfl
  | unmapped => rfl

/-- Writing a decoded cell keeps the memory's invariant. -/
theorem memoryInv_writeCell {s : State} {addr : Word} {c : CellRef} (h : s.memoryInv) (hc : s.target addr = .cell c)
    (v : Byte) : (s.writeCell c v).memoryInv := by
  obtain ⟨⟨hr, hm, hf⟩, hb, hl⟩ := h
  have hbd := target_cell_bound hc
  cases c with
  | ram i =>
    obtain ⟨hi, hbus⟩ := hbd
    exact ⟨⟨Memory.write_wf hr hi v, hm, hf⟩, hb, fun e => by simp [State.writeCell, hbus] at e⟩
  | rom i =>
    obtain ⟨hi, hbus⟩ := hbd
    exact ⟨⟨hr, Memory.write_wf hm hi v, hf⟩, hb, fun e => by simp [State.writeCell, hbus] at e⟩
  | flat i =>
    obtain ⟨hi, hflat⟩ := hbd
    exact ⟨⟨hr, hm, Memory.write_wf hf hi v⟩, fun e => by simp [State.writeCell, hflat] at e, hl⟩

/-! ## Words and effective addresses -/

/-- `{hi, lo}` as a number (R44). -/
theorem toNat_assemble (hi lo : Byte) : (assemble hi lo).toNat = hi.toNat * 256 + lo.toNat := by
  have h1 := hi.isLt
  have h2 := lo.isLt
  have h3 : (zext16 hi <<< 8).toNat = hi.toNat <<< 8 := by
    simp only [zext16, BitVec.toNat_shiftLeft, BitVec.toNat_setWidth, Nat.shiftLeft_eq]
    omega
  have h4 : (zext16 lo).toNat = lo.toNat := by
    simp only [zext16, BitVec.toNat_setWidth]
    omega
  rw [assemble, BitVec.toNat_or, h3, h4, ← Nat.shiftLeft_add_eq_or_of_lt h2, Nat.shiftLeft_eq]

/-- The halves of a word put it together again. -/
theorem assemble_halves (w : Word) : assemble (highByte w) (lowByte w) = w := by
  apply BitVec.eq_of_toNat_eq
  have := w.isLt
  rw [toNat_assemble]
  simp only [highByte, lowByte, BitVec.extractLsb'_toNat, Nat.shiftRight_eq_div_pow]
  omega

theorem readPointer_ok (ptr : Byte) (s : State) :
    ∃ lo hi, s.byteAt (zext16 ptr) = some lo ∧ s.byteAt (zext16 (ptr + 1)) = some hi ∧
      readPointer ptr s = .ok (assemble hi lo) s := by
  obtain ⟨c, hc⟩ := target_zeroPage s ptr
  obtain ⟨d, hd⟩ := target_zeroPage s (ptr + 1)
  exact ⟨_, _, byteAt_cell hc, byteAt_cell hd, by
    rw [readPointer, memRead_cell hc, Res.bind_ok, memRead_cell hd, Res.bind_ok]⟩

/-- The effective address of an addressing form always exists, and computing it changes nothing. -/
theorem effAddr_ok (o : MemOperand) (s : State) : ∃ ea, effAddr o s = .ok ea s := by
  cases o with
  | indirectX d8 =>
    obtain ⟨lo, hi, -, -, h⟩ := readPointer_ok (d8 + s.x) s
    exact ⟨_, h⟩
  | indirectY d8 =>
    obtain ⟨lo, hi, -, -, h⟩ := readPointer_ok d8 s
    exact ⟨_, by simp only [effAddr, h, Res.bind_ok]; rfl⟩
  | _ => exact ⟨_, rfl⟩

/-! ## Which shared operation each instruction is -/

theorem exec_immLoad {i : Instr} {r : Reg} {d8 : Byte} (h : i.immLoad? = some (r, d8)) (s : State) :
    exec i s = loadImm r d8 s := by
  cases i <;> cases h <;> rfl

theorem exec_memLoad {i : Instr} {r : Reg} {o : MemOperand} (h : i.memLoad? = some (r, o)) (s : State) :
    exec i s = loadMem r o s := by
  cases i <;> cases h <;> rfl

theorem exec_store {i : Instr} {r : Reg} {o : MemOperand} (h : i.store? = some (r, o)) (s : State) :
    exec i s = storeMem r o s := by
  cases i <;> cases h <;> rfl

theorem exec_transfer {i : Instr} {src dst : Reg} (h : i.transfer? = some (src, dst)) (s : State) :
    exec i s = transfer src dst 0 s := by
  cases i <;> cases h <;> rfl

theorem exec_incReg {i : Instr} {r : Reg} (h : i.incReg? = some r) (s : State) : exec i s = incReg r 0 s := by
  cases i <;> cases h <;> rfl

theorem exec_incMem {i : Instr} {o : MemOperand} (h : i.incMem? = some o) (s : State) :
    exec i s = incMemAt o s := by
  cases i <;> cases h <;> rfl

/-- Every instruction has one of the seven shapes. -/
theorem instr_shape (i : Instr) :
    (∃ r d8, i.immLoad? = some (r, d8)) ∨ (∃ r o, i.memLoad? = some (r, o)) ∨ (∃ r o, i.store? = some (r, o)) ∨
      (∃ src dst, i.transfer? = some (src, dst)) ∨ (∃ r, i.incReg? = some r) ∨ (∃ o, i.incMem? = some o) ∨
      i = .brk := by
  cases i <;> simp [Instr.immLoad?, Instr.memLoad?, Instr.store?, Instr.transfer?, Instr.incReg?, Instr.incMem?]

end Sys2Proof.Machine
end

