-- ==== Sys2Proof/Laws/Lifecycle.lean ====
section
/-! SUPPORT. That every memory operation keeps the memory's canonical form, and what the host's writes above 0x8000 do
(R50, R54, R251). -/

namespace Sys2Proof.Machine

/-! ## The canonical form of memory -/

/-- Right after reset memory lists nothing. -/
theorem reset_memoryInv : State.reset.memoryInv := by decide

/-- `create` leaves canonical memory, for an accepted configuration. -/
theorem created_memoryInv {c : Config} (h : c.wf) : (State.created c).memoryInv := by
  obtain ⟨-, -, h1, h2, h3⟩ := h
  refine ⟨⟨?_, ?_, ?_⟩, fun e => ?_, fun e => ?_⟩
  · simp only [State.created]; split
    · exact h1
    · exact Memory.wf_nil _
  · simp only [State.created]; split
    · exact h2
    · exact Memory.wf_nil _
  · simp only [State.created]; split
    · exact h3
    · exact Memory.wf_nil _
  · simp only [State.created] at e ⊢; simp [e]
  · simp only [State.created] at e ⊢; simp [e]

/-- A log entry keeps the memory's invariant where the log is written at all. -/
theorem memoryInv_logged {s : State} (h : s.memoryInv) {addr : Word} (hu : s.target addr = .unmapped) (e : LogEvent) :
    (s.logged e).memoryInv := by
  refine ⟨h.1, h.2.1, fun hf => ?_⟩
  rw [target_flat (s := s) hf] at hu
  cases hu

/-- A byte read keeps the memory's invariant. -/
theorem memoryInv_memRead {s t : State} {addr : Word} {v : Byte} (h : s.memoryInv) (hr : memRead addr s = .ok v t) :
    t.memoryInv := by
  rcases memRead_ok hr with ⟨c, -, -, rfl⟩ | ⟨hu, -, rfl⟩
  · exact h
  · exact memoryInv_logged h hu _

/-- A byte write keeps the memory's invariant. -/
theorem memoryInv_memWrite {s t : State} {addr : Word} {v : Byte} (h : s.memoryInv)
    (hw : memWrite addr v s = .ok () t) : t.memoryInv := by
  rcases memWrite_ok hw with ⟨c, hc, rfl⟩ | ⟨hu, rfl⟩
  · exact memoryInv_writeCell h hc v
  · exact memoryInv_logged h hu _

/-- A word read keeps the memory's invariant. -/
theorem memoryInv_readWord {s t : State} {addr w : Word} (h : s.memoryInv) (hr : readWord addr s = .ok w t) :
    t.memoryInv := by
  simp only [readWord] at hr
  cases h1 : memRead addr s with
  | stop o => rw [h1] at hr; cases hr
  | ok lo s1 =>
    rw [h1, Res.bind_ok] at hr
    cases h2 : memRead (addr + 1) s1 with
    | stop o => rw [h2] at hr; cases hr
    | ok hi s2 =>
      rw [h2, Res.bind_ok] at hr
      cases hr
      exact memoryInv_memRead (memoryInv_memRead h h1) h2

/-- A word write keeps the memory's invariant. -/
theorem memoryInv_writeWord {s t : State} {addr w : Word} (h : s.memoryInv) (hw : writeWord addr w s = .ok () t) :
    t.memoryInv := by
  simp only [writeWord] at hw
  cases h1 : memWrite addr (lowByte w) s with
  | stop o => rw [h1] at hw; cases hw
  | ok u s1 =>
    rw [h1, Res.bind_ok] at hw
    exact memoryInv_memWrite (memoryInv_memWrite h h1) hw

/-- Bytes placed from outside keep the memory's invariant. -/
theorem memoryInv_placeBytes {s : State} (h : s.memoryInv) (addr : Word) (bytes : List Byte) :
    (s.placeBytes addr bytes).memoryInv := by
  induction bytes generalizing s addr with
  | nil => exact h
  | cons b bs ih =>
    simp only [State.placeBytes]
    refine ih ?_ _
    split
    · rename_i c hc
      exact memoryInv_writeCell h hc b
    · exact h
    · exact h

/-! ## Host writes above 0x8000 -/

/-- An address from 0x8000 up has a cell of its own, under either memory. -/
theorem target_high (s : State) {addr : Word} (h : 0x8000 ≤ addr.toNat) :
    (∃ c, s.target addr = .cell c) ∧ ∀ other, s.sameCell addr other → other = addr := by
  cases hm : s.cfg.memImpl with
  | flat =>
    refine ⟨⟨_, target_flat hm _⟩, ?_⟩
    rintro other ⟨c, h1, h2⟩
    rw [target_flat hm] at h1 h2
    rw [← h1] at h2
    simp only [Target.cell.injEq, CellRef.flat.injEq] at h2
    exact BitVec.eq_of_toNat_eq h2
  | bus =>
    refine ⟨⟨_, target_rom hm h⟩, ?_⟩
    rintro other ⟨c, h1, h2⟩
    rw [target_rom hm h] at h1
    rw [← h1] at h2
    by_cases h3 : 0x8000 ≤ other.toNat
    · rw [target_rom hm h3] at h2
      simp only [Target.cell.injEq, CellRef.rom.injEq] at h2
      apply BitVec.eq_of_toNat_eq
      omega
    · by_cases h4 : other.toNat < 0x2000
      · rw [target_ram hm h4] at h2
        cases h2
      · by_cases h5 : other.toNat < 0x4000
        · rw [target_io hm (by omega) h5] at h2
          cases h2
        · rw [target_unmapped hm (by omega) (by omega)] at h2
          cases h2

/-- Two states that may differ in memory only. -/
structure SameButMemory (s t : State) : Prop where
  a     : t.a = s.a
  x     : t.x = s.x
  y     : t.y = s.y
  p     : t.p = s.p
  pc    : t.pc = s.pc
  seq   : t.seq = s.seq
  fault : t.fault = s.fault
  log   : t.log = s.log
  cfg   : t.cfg = s.cfg

theorem SameButMemory.refl (s : State) : SameButMemory s s := ⟨rfl, rfl, rfl, rfl, rfl, rfl, rfl, rfl, rfl⟩

theorem SameButMemory.trans {s t u : State} (h : SameButMemory s t) (k : SameButMemory t u) : SameButMemory s u :=
  ⟨k.a.trans h.a, k.x.trans h.x, k.y.trans h.y, k.p.trans h.p, k.pc.trans h.pc, k.seq.trans h.seq,
    k.fault.trans h.fault, k.log.trans h.log, k.cfg.trans h.cfg⟩

/-- A byte write from 0x8000 up succeeds, writes that byte and nothing else. -/
theorem memWrite_high {s : State} (hi : s.memoryInv) {addr : Word} (h : 0x8000 ≤ addr.toNat) (v : Byte) :
    ∃ t, memWrite addr v s = .ok () t ∧ SameButMemory s t ∧ t.memoryInv ∧ t.byteAt addr = some v ∧
      ∀ other, other ≠ addr → t.byteAt other = s.byteAt other := by
  obtain ⟨⟨c, hc⟩, hu⟩ := target_high s h
  refine ⟨_, memWrite_cell hc v, ⟨by simp, by simp, by simp, by simp, by simp, by simp, by simp, by simp, by simp⟩,
    memoryInv_writeCell hi hc v, ?_, fun other ho => byteAt_writeCell_other hc (fun hs => ho (hu _ hs)) v⟩
  rw [byteAt_cell (c := c) (by rw [target_congr (State.writeCell_cfg s c v)]; exact hc), readCell_writeCell_same hi]

/-- Bytes written to ascending addresses from 0x8000 up stand there, and nothing else changes (R251). -/
theorem writeBytes_high (bytes : List Byte) (n : Nat) {s : State} (hi : s.memoryInv) (h1 : 0x8000 ≤ n)
    (h2 : n + bytes.length ≤ 0x10000) :
    ∃ t, writeBytes (BitVec.ofNat 16 n) bytes s = .ok () t ∧ SameButMemory s t ∧ t.memoryInv ∧
      (∀ k (h : k < bytes.length), t.byteAt (BitVec.ofNat 16 (n + k)) = some bytes[k]) ∧
      ∀ addr : Word, (addr.toNat < n ∨ n + bytes.length ≤ addr.toNat) → t.byteAt addr = s.byteAt addr := by
  induction bytes generalizing n s with
  | nil => exact ⟨s, rfl, SameButMemory.refl s, hi, fun k hk => absurd hk (by simp), fun _ _ => rfl⟩
  | cons b bs ih =>
    simp only [List.length_cons] at h2
    have hn : (BitVec.ofNat 16 n).toNat = n := by rw [BitVec.toNat_ofNat]; omega
    obtain ⟨s1, e1, r1, i1, v1, o1⟩ := memWrite_high hi (addr := BitVec.ofNat 16 n) (by omega) b
    obtain ⟨t, e2, r2, i2, v2, o2⟩ := ih (n + 1) i1 (by omega) (by omega)
    have hadd : BitVec.ofNat 16 n + 1 = BitVec.ofNat 16 (n + 1) := (BitVec.ofNat_add n 1).symm
    refine ⟨t, by rw [writeBytes, e1, Res.bind_ok, hadd, e2], r1.trans r2, i2, fun k hk => ?_, fun addr ha => ?_⟩
    · cases k with
      | zero =>
        rw [o2 _ (by rw [Nat.add_zero, hn]; omega)]
        simpa using v1
      | succ k =>
        have := v2 k (by simpa using hk)
        rw [show n + (k + 1) = n + 1 + k by omega]
        simpa using this
    · simp only [List.length_cons] at ha
      rw [o2 addr (by omega), o1]
      rintro rfl
      omega

end Sys2Proof.Machine
end

