-- ==== Sys2Proof/Laws/PerInstr.lean ====
section
/-! SUPPORT. The family TableRow, one lemma per instruction: the row of `DT_EXT` its opcode byte has (R85), that the row is
well formed (R82), and its length (R80, R91). -/

namespace Sys2Proof.Laws.TableRow

/-- `DT_EXT` gives the opcode byte of `i` the entry that `i` is the row of; the entry is well formed; the encoding is the
opcode byte and as many operand bytes as the entry's width. -/
def Statement (i : Instr) : Prop :=
  TableChoice.ext.find i.opcode = some i.entry ∧ i.entry.wf = true ∧
    (encode i).head? = some i.opcode ∧ (encode i).length = 1 + i.entry.width

theorem ldaImm (d8 : Byte) : Statement (.ldaImm d8) := ⟨rfl, rfl, rfl, rfl⟩
theorem ldaZp (d8 : Byte) : Statement (.ldaZp d8) := ⟨rfl, rfl, rfl, rfl⟩
theorem ldaZpX (d8 : Byte) : Statement (.ldaZpX d8) := ⟨rfl, rfl, rfl, rfl⟩
theorem ldaAbs (a16 : Word) : Statement (.ldaAbs a16) := ⟨rfl, rfl, rfl, rfl⟩
theorem ldaAbsX (a16 : Word) : Statement (.ldaAbsX a16) := ⟨rfl, rfl, rfl, rfl⟩
theorem ldaAbsY (a16 : Word) : Statement (.ldaAbsY a16) := ⟨rfl, rfl, rfl, rfl⟩
theorem ldaIndX (d8 : Byte) : Statement (.ldaIndX d8) := ⟨rfl, rfl, rfl, rfl⟩
theorem ldaIndY (d8 : Byte) : Statement (.ldaIndY d8) := ⟨rfl, rfl, rfl, rfl⟩
theorem ldxImm (d8 : Byte) : Statement (.ldxImm d8) := ⟨rfl, rfl, rfl, rfl⟩
theorem ldxZp (d8 : Byte) : Statement (.ldxZp d8) := ⟨rfl, rfl, rfl, rfl⟩
theorem ldxZpY (d8 : Byte) : Statement (.ldxZpY d8) := ⟨rfl, rfl, rfl, rfl⟩
theorem ldxAbs (a16 : Word) : Statement (.ldxAbs a16) := ⟨rfl, rfl, rfl, rfl⟩
theorem ldxAbsY (a16 : Word) : Statement (.ldxAbsY a16) := ⟨rfl, rfl, rfl, rfl⟩
theorem ldyImm (d8 : Byte) : Statement (.ldyImm d8) := ⟨rfl, rfl, rfl, rfl⟩
theorem ldyZp (d8 : Byte) : Statement (.ldyZp d8) := ⟨rfl, rfl, rfl, rfl⟩
theorem ldyZpX (d8 : Byte) : Statement (.ldyZpX d8) := ⟨rfl, rfl, rfl, rfl⟩
theorem ldyAbs (a16 : Word) : Statement (.ldyAbs a16) := ⟨rfl, rfl, rfl, rfl⟩
theorem ldyAbsX (a16 : Word) : Statement (.ldyAbsX a16) := ⟨rfl, rfl, rfl, rfl⟩
theorem staZp (d8 : Byte) : Statement (.staZp d8) := ⟨rfl, rfl, rfl, rfl⟩
theorem staZpX (d8 : Byte) : Statement (.staZpX d8) := ⟨rfl, rfl, rfl, rfl⟩
theorem staAbs (a16 : Word) : Statement (.staAbs a16) := ⟨rfl, rfl, rfl, rfl⟩
theorem staAbsX (a16 : Word) : Statement (.staAbsX a16) := ⟨rfl, rfl, rfl, rfl⟩
theorem staAbsY (a16 : Word) : Statement (.staAbsY a16) := ⟨rfl, rfl, rfl, rfl⟩
theorem staIndX (d8 : Byte) : Statement (.staIndX d8) := ⟨rfl, rfl, rfl, rfl⟩
theorem staIndY (d8 : Byte) : Statement (.staIndY d8) := ⟨rfl, rfl, rfl, rfl⟩
theorem stxZp (d8 : Byte) : Statement (.stxZp d8) := ⟨rfl, rfl, rfl, rfl⟩
theorem stxZpY (d8 : Byte) : Statement (.stxZpY d8) := ⟨rfl, rfl, rfl, rfl⟩
theorem stxAbs (a16 : Word) : Statement (.stxAbs a16) := ⟨rfl, rfl, rfl, rfl⟩
theorem styZp (d8 : Byte) : Statement (.styZp d8) := ⟨rfl, rfl, rfl, rfl⟩
theorem styZpX (d8 : Byte) : Statement (.styZpX d8) := ⟨rfl, rfl, rfl, rfl⟩
theorem styAbs (a16 : Word) : Statement (.styAbs a16) := ⟨rfl, rfl, rfl, rfl⟩
theorem tax : Statement .tax := ⟨rfl, rfl, rfl, rfl⟩
theorem tay : Statement .tay := ⟨rfl, rfl, rfl, rfl⟩
theorem txa : Statement .txa := ⟨rfl, rfl, rfl, rfl⟩
theorem tya : Statement .tya := ⟨rfl, rfl, rfl, rfl⟩
theorem inx : Statement .inx := ⟨rfl, rfl, rfl, rfl⟩
theorem iny : Statement .iny := ⟨rfl, rfl, rfl, rfl⟩
theorem incZp (d8 : Byte) : Statement (.incZp d8) := ⟨rfl, rfl, rfl, rfl⟩
theorem incZpX (d8 : Byte) : Statement (.incZpX d8) := ⟨rfl, rfl, rfl, rfl⟩
theorem incAbs (a16 : Word) : Statement (.incAbs a16) := ⟨rfl, rfl, rfl, rfl⟩
theorem incAbsX (a16 : Word) : Statement (.incAbsX a16) := ⟨rfl, rfl, rfl, rfl⟩
theorem brk : Statement .brk := ⟨rfl, rfl, rfl, rfl⟩

end Sys2Proof.Laws.TableRow
end

