-- ==== Sys2Proof/Laws/Step.lean ====
section
/-! SUPPORT. What the sequencer can do, said once: the execution of an entry is the pseudocode of its operation, and the
inversion of each operation and of a step. -/

namespace Sys2Proof.Machine

/-- The operation with its operands read as an instruction is the operation with the resolver at `PC` (R83, R100). -/
theorem runEntry_of_shape {e : Entry} {sh : Shape} (h : e.shape = some sh) (op : Byte) (s : State) :
    runEntry op e s = runOperation op e s := by
  obtain ⟨o, m, w⟩ := e
  have hw : w = m.width := by
    by_contra hne
    simp [Entry.shape, hne] at h
  have h' := h
  simp only [Entry.shape, hw, if_true] at h'
  simp only [runEntry, h]
  subst hw
  cases o with
  | ld r =>
    cases r <;> cases m <;> simp only [shapeOf, reduceCtorEq, Option.some.injEq] at h' <;> subst h' <;>
      simp only [runOperation, resolve, load, Res.bind_finish] <;> rfl
  | st r =>
    cases r <;> cases m <;> simp only [shapeOf, reduceCtorEq, Option.some.injEq] at h' <;> subst h' <;>
      simp only [runOperation, resolve, store, Res.bind_finish] <;> rfl
  | tr src dst =>
    cases src <;> cases dst <;> cases m <;> simp only [shapeOf, reduceCtorEq, Option.some.injEq] at h' <;> subst h' <;> rfl
  | incr r =>
    cases r <;> cases m <;> simp only [shapeOf, reduceCtorEq, Option.some.injEq] at h' <;> subst h' <;> rfl
  | incm =>
    cases m <;> simp only [shapeOf, reduceCtorEq, Option.some.injEq] at h' <;> subst h' <;>
      simp only [runOperation, resolve, incMem, Res.bind_finish] <;> rfl
  | halt =>
    cases m <;> simp only [shapeOf, reduceCtorEq, Option.some.injEq] at h' <;> subst h' <;> rfl

/-- An entry is executed by the pseudocode of its operation, or refused. -/
theorem runEntry_cases (op : Byte) (e : Entry) (s : State) :
    runEntry op e s = runOperation op e s ∨ runEntry op e s = .refused .malformedTableEntry := by
  cases h : e.shape with
  | some sh => exact .inl (runEntry_of_shape h op s)
  | none =>
    by_cases hw : (e.wf || e.addressMissing) = true
    · exact .inl (by simp only [runEntry, h, hw, if_true])
    · exact .inr (by simp only [runEntry, h, hw]; rfl)

/-- A step that gives a next state is of a running machine: the fetch was fatal, or the byte read has no entry, or its
entry was executed. -/
theorem step_next {s t : State} (h : step s = .next t) :
    s.seq = .running ∧
      ((∃ m, s.target s.pc = .ioWindow m ∧ s.cfg.ioDevice = .none ∧
          t = s.raise (.unimplementedDevice .read s.pc m)) ∨
        ∃ op s1, memRead s.pc s = .ok op s1 ∧
          ((s.cfg.dt.find op = none ∧ t = (s1.advance 1).raise (.unimplementedOpcode op (s.pc + 1))) ∨
            ∃ e, s.cfg.dt.find op = some e ∧ runOperation op e (s1.advance 1) = .next t)) := by
  have hr : s.seq = .running := by
    cases hq : s.seq with
    | running => rfl
    | halted => simp [step, hq] at h
    | faulted => simp [step, hq] at h
  refine ⟨hr, ?_⟩
  simp only [step, hr, runInstruction, fetchOpcode] at h
  cases hm : memRead s.pc s with
  | stop o =>
    left
    rw [hm] at h
    obtain ⟨m, ht, rfl⟩ := memRead_stop hm
    simp only [Res.bind_stop, Res.finish_stop, ioAccess] at h
    split at h
    · rename_i hd
      cases h
      exact ⟨m, ht, hd, rfl⟩
    · cases h
  | ok op s1 =>
    right
    rw [hm] at h
    have hs := (memRead_sameButLog hm).1
    have hc : s1.cfg = s.cfg := by rw [hs]
    have hp : s1.pc = s.pc := by rw [hs]
    refine ⟨op, s1, rfl, ?_⟩
    simp only [Res.bind_ok, Res.finish_ok, decodeAndRun, State.advance_cfg, hc] at h
    split at h
    · rename_i hf
      cases h
      refine .inl ⟨hf, ?_⟩
      simp only [State.advance_pc, hp]
      rfl
    · rename_i e hf
      refine .inr ⟨e, hf, ?_⟩
      rcases runEntry_cases op e (s1.advance 1) with h1 | h1
      · rw [← h1]; exact h
      · rw [h1] at h; cases h

/-- The resolver changes the log at most, and only by adding to it (R100). -/
theorem resolve_ok {op : Byte} {m : Mode} {s s1 : State} {ea : Word} (h : resolve op m s = .ok ea s1) :
    s.sameButLog s1 ∧ s.log <+: s1.log := by
  have byte : ∀ (k : Byte → MemOperand),
      (memRead s.pc s).bind (fun d8 s1 => effAddr (k d8) s1) = .ok ea s1 → s.sameButLog s1 ∧ s.log <+: s1.log := by
    intro k hk
    cases hm : memRead s.pc s with
    | stop o => rw [hm] at hk; cases hk
    | ok d8 s2 =>
      rw [hm] at hk
      obtain ⟨x, hx⟩ := effAddr_ok (k d8) s2
      rw [Res.bind_ok, hx] at hk
      cases hk
      exact memRead_sameButLog hm
  have word : ∀ (k : Word → MemOperand),
      (readWord s.pc s).bind (fun a16 s1 => effAddr (k a16) s1) = .ok ea s1 →
        s.sameButLog s1 ∧ s.log <+: s1.log := by
    intro k hk
    simp only [readWord] at hk
    cases hm : memRead s.pc s with
    | stop o => rw [hm] at hk; cases hk
    | ok lo s2 =>
      rw [hm, Res.bind_ok] at hk
      cases hn : memRead (s.pc + 1) s2 with
      | stop o => rw [hn] at hk; cases hk
      | ok hi s3 =>
        rw [hn] at hk
        simp only [Res.bind_ok] at hk
        obtain ⟨x, hx⟩ := effAddr_ok (k (assemble hi lo)) s3
        rw [hx] at hk
        cases hk
        obtain ⟨h1, h2⟩ := memRead_sameButLog hm
        obtain ⟨h3, h4⟩ := memRead_sameButLog hn
        exact ⟨by rw [State.sameButLog, h3, h1], h2.trans h4⟩
  cases m with
  | immediate => cases h; exact ⟨rfl, List.prefix_refl _⟩
  | noneAddressing => cases h
  | zeroPage => exact byte _ h
  | zeroPageX => exact byte _ h
  | zeroPageY => exact byte _ h
  | indirectX => exact byte _ h
  | indirectY => exact byte _ h
  | absolute => exact word _ h
  | absoluteX => exact word _ h
  | absoluteY => exact word _ h

/-- What a fatal condition inside an operation leaves: the state the operation had reached, which differs from its start
in the log only, with the condition latched (R225, R226). -/
def FatalFrom (s t : State) : Prop :=
  ∃ s1 f, s.sameButLog s1 ∧ s.log <+: s1.log ∧ (s.cfg.memImpl = .flat → s1.log = s.log) ∧ t = s1.raise f

/-- What a completed operation leaves as it was, or changes in one way only. -/
structure Completed (halts : Prop) (w : Nat) (s t : State) : Prop where
  pc     : t.pc = s.pc + BitVec.ofNat 16 w
  fault  : t.fault = s.fault
  cfg    : t.cfg = s.cfg
  status : t.p = s.p ∨ ∃ v, t.p = statusZN v s.p
  seq    : (halts ∧ t.seq = .halted) ∨ (¬ halts ∧ t.seq = s.seq)
  log    : s.log <+: t.log
  flat   : s.cfg.memImpl = .flat → t.log = s.log
  memory : (t.ram = s.ram ∧ t.rom = s.rom ∧ t.flat = s.flat) ∨
    ∃ addr c v, s.target addr = .cell c ∧ t.ram = (s.writeCell c v).ram ∧ t.rom = (s.writeCell c v).rom ∧
      t.flat = (s.writeCell c v).flat

/-- Under `Flat` a byte read logs nothing (R54). -/
theorem memRead_flat_log {s t : State} {addr : Word} {v : Byte} (h : memRead addr s = .ok v t)
    (hf : s.cfg.memImpl = .flat) : t.log = s.log := by
  rcases memRead_ok h with ⟨c, -, -, rfl⟩ | ⟨hu, -, -⟩
  · rfl
  · rw [target_flat hf] at hu; cases hu

/-- A byte read that ends the step with a next state is fatal (R49, R225). -/
theorem memRead_stop_next {s t : State} {addr : Word} (h : memRead addr s = .stop (.next t)) :
    ∃ f, t = s.raise f := by
  obtain ⟨m, -, ho⟩ := memRead_stop h
  simp only [ioAccess] at ho
  split at ho
  · exact ⟨_, by injection ho⟩
  · cases ho

/-- A byte write that ends the step with a next state is fatal (R49, R225). -/
theorem memWrite_stop_next {s t : State} {addr : Word} {v : Byte} (h : memWrite addr v s = .stop (.next t)) :
    ∃ f, t = s.raise f := by
  obtain ⟨m, -, ho⟩ := memWrite_stop h
  simp only [ioAccess] at ho
  split at ho
  · exact ⟨_, by injection ho⟩
  · cases ho

/-- A byte write changes one decoded cell, or appends to the log where no cell is. -/
theorem memWrite_effect {s t : State} {addr : Word} {v : Byte} (h : memWrite addr v s = .ok () t) :
    (∃ c, s.target addr = .cell c ∧ t = s.writeCell c v) ∨
      (t = s.logged (.unmappedWrite addr v) ∧ s.cfg.memImpl ≠ .flat) := by
  rcases memWrite_ok h with hc | ⟨hu, rfl⟩
  · exact .inl hc
  · refine .inr ⟨rfl, fun hf => ?_⟩
    rw [target_flat hf] at hu
    cases hu

/-- Under `Flat` the resolver logs nothing (R54). -/
theorem resolve_flat_log {op : Byte} {m : Mode} {s s1 : State} {ea : Word} (h : resolve op m s = .ok ea s1)
    (hf : s.cfg.memImpl = .flat) : s1.log = s.log := by
  have hr : ∀ a : Word, ∃ b, memRead a s = .ok b s := fun a => ⟨_, memRead_cell (target_flat hf a)⟩
  obtain ⟨lo, hlo⟩ := hr s.pc
  obtain ⟨hi, hhi⟩ := hr (s.pc + 1)
  have hw : readWord s.pc s = .ok (assemble hi lo) s := by rw [readWord, hlo, Res.bind_ok, hhi, Res.bind_ok]
  cases m with
  | immediate => cases h; rfl
  | noneAddressing => cases h
  | _ =>
    simp only [resolve, hlo, hw, Res.bind_ok] at h
    first
      | (cases h; rfl)
      | (obtain ⟨x, hx⟩ := effAddr_ok (.indirectX lo) s
         rw [hx] at h; cases h; rfl)
      | (obtain ⟨x, hx⟩ := effAddr_ok (.indirectY lo) s
         rw [hx] at h; cases h; rfl)

/-- A resolver that ends the step with a next state is fatal, from a state that differs in the log only. -/
theorem resolve_stop_next {op : Byte} {m : Mode} {s t : State} (h : resolve op m s = .stop (.next t)) :
    FatalFrom s t := by
  have byte : ∀ (k : Byte → MemOperand),
      (memRead s.pc s).bind (fun d8 s1 => effAddr (k d8) s1) = .stop (.next t) → FatalFrom s t := by
    intro k hk
    cases hm : memRead s.pc s with
    | stop o =>
      rw [hm, Res.bind_stop] at hk
      cases hk
      obtain ⟨f, rfl⟩ := memRead_stop_next hm
      exact ⟨s, f, rfl, List.prefix_refl _, fun _ => rfl, rfl⟩
    | ok d8 s2 =>
      obtain ⟨x, hx⟩ := effAddr_ok (k d8) s2
      rw [hm, Res.bind_ok, hx] at hk
      cases hk
  have word : ∀ (k : Word → MemOperand),
      (readWord s.pc s).bind (fun a16 s1 => effAddr (k a16) s1) = .stop (.next t) → FatalFrom s t := by
    intro k hk
    simp only [readWord] at hk
    cases hm : memRead s.pc s with
    | stop o =>
      rw [hm, Res.bind_stop, Res.bind_stop] at hk
      cases hk
      obtain ⟨f, rfl⟩ := memRead_stop_next hm
      exact ⟨s, f, rfl, List.prefix_refl _, fun _ => rfl, rfl⟩
    | ok lo s2 =>
      rw [hm, Res.bind_ok] at hk
      cases hn : memRead (s.pc + 1) s2 with
      | stop o =>
        rw [hn, Res.bind_stop, Res.bind_stop] at hk
        cases hk
        obtain ⟨f, rfl⟩ := memRead_stop_next hn
        exact ⟨s2, f, (memRead_sameButLog hm).1, (memRead_sameButLog hm).2, memRead_flat_log hm, rfl⟩
      | ok hi s3 =>
        rw [hn] at hk
        simp only [Res.bind_ok] at hk
        obtain ⟨x, hx⟩ := effAddr_ok (k (assemble hi lo)) s3
        rw [hx] at hk
        cases hk
  cases m with
  | immediate => cases h
  | noneAddressing => cases h; exact ⟨s, _, rfl, List.prefix_refl _, fun _ => rfl, rfl⟩
  | zeroPage => exact byte _ h
  | zeroPageX => exact byte _ h
  | zeroPageY => exact byte _ h
  | indirectX => exact byte _ h
  | indirectY => exact byte _ h
  | absolute => exact word _ h
  | absoluteX => exact word _ h
  | absoluteY => exact word _ h

/-- All an operation can do when it gives a next state: end in a fatal condition, or complete. -/
theorem runOperation_next {op : Byte} {e : Entry} {s t : State} (h : runOperation op e s = .next t) :
    FatalFrom s t ∨ Completed (e.op = .halt) e.width s t := by
  obtain ⟨o, m, w⟩ := e
  have resolved : ∀ (k : Word → State → Outcome), (resolve op m s).finish k = .next t →
      FatalFrom s t ∨ ∃ ea s1, s.sameButLog s1 ∧ s.log <+: s1.log ∧ (s.cfg.memImpl = .flat → s1.log = s.log) ∧
        k ea s1 = .next t := by
    intro k hk
    cases hr : resolve op m s with
    | stop o =>
      rw [hr, Res.finish_stop] at hk
      subst hk
      exact .inl (resolve_stop_next hr)
    | ok ea s1 =>
      rw [hr, Res.finish_ok] at hk
      exact .inr ⟨ea, s1, (resolve_ok hr).1, (resolve_ok hr).2, resolve_flat_log hr, hk⟩
  have reading : ∀ (ea : Word) (s1 : State) (k : Byte → State → Outcome), s.sameButLog s1 → s.log <+: s1.log →
      (s.cfg.memImpl = .flat → s1.log = s.log) → (memRead ea s1).finish k = .next t →
      FatalFrom s t ∨ ∃ v s2, s.sameButLog s2 ∧ s.log <+: s2.log ∧ (s.cfg.memImpl = .flat → s2.log = s.log) ∧
        k v s2 = .next t := by
    intro ea s1 k h1 h2 h3 hk
    cases hr : memRead ea s1 with
    | stop o =>
      rw [hr, Res.finish_stop] at hk
      subst hk
      obtain ⟨f, rfl⟩ := memRead_stop_next hr
      exact .inl ⟨s1, f, h1, h2, h3, rfl⟩
    | ok v s2 =>
      rw [hr, Res.finish_ok] at hk
      obtain ⟨h4, h5⟩ := memRead_sameButLog hr
      refine .inr ⟨v, s2, by rw [State.sameButLog, h4, h1], h2.trans h5, fun hf => ?_, hk⟩
      rw [memRead_flat_log hr (by rw [h1]; exact hf), h3 hf]
  have writing : ∀ (ea : Word) (b : Byte) (s1 : State) (k : State → Outcome), s.sameButLog s1 → s.log <+: s1.log →
      (s.cfg.memImpl = .flat → s1.log = s.log) → (memWrite ea b s1).finish (fun _ s2 => k s2) = .next t →
      FatalFrom s t ∨ ∃ s2, k s2 = .next t ∧ s2.pc = s.pc ∧ s2.p = s.p ∧ s2.seq = s.seq ∧
        s2.fault = s.fault ∧ s2.cfg = s.cfg ∧ s.log <+: s2.log ∧ (s.cfg.memImpl = .flat → s2.log = s.log) ∧
        ((s2.ram = s.ram ∧ s2.rom = s.rom ∧ s2.flat = s.flat) ∨
          ∃ addr c v, s.target addr = .cell c ∧ s2.ram = (s.writeCell c v).ram ∧ s2.rom = (s.writeCell c v).rom ∧
            s2.flat = (s.writeCell c v).flat) := by
    intro ea b s1 k h1 h2 h3 hk
    cases hr : memWrite ea b s1 with
    | stop o =>
      rw [hr, Res.finish_stop] at hk
      subst hk
      obtain ⟨f, rfl⟩ := memWrite_stop_next hr
      exact .inl ⟨s1, f, h1, h2, h3, rfl⟩
    | ok u s2 =>
      rw [hr, Res.finish_ok] at hk
      rcases memWrite_effect hr with ⟨c, hc, rfl⟩ | ⟨rfl, hf⟩
      · refine .inr ⟨_, hk, ?_⟩
        have hc' : s.target ea = .cell c := by rw [← target_congr (show s1.cfg = s.cfg by rw [h1])]; exact hc
        refine ⟨by rw [h1]; simp, by rw [h1]; simp, by rw [h1]; simp, by rw [h1]; simp, by rw [h1]; simp, by simpa using h2,
          by simpa using h3, .inr ⟨ea, c, b, hc', ?_⟩⟩
        rw [h1]
        cases c <;> exact ⟨rfl, rfl, rfl⟩
      · refine .inr ⟨_, hk, by rw [h1]; rfl, by rw [h1]; rfl, by rw [h1]; rfl, by rw [h1]; rfl, by rw [h1]; rfl,
          h2.trans (List.prefix_append _ _), fun e => absurd (by rw [h1]; exact e) hf, .inl ?_⟩
        rw [h1]
        exact ⟨rfl, rfl, rfl⟩
  cases o with
  | ld r =>
    simp only [runOperation, load] at h
    rcases resolved _ h with hf | ⟨ea, s1, h1, h2, h3, h4⟩
    · exact .inl hf
    rcases reading ea s1 _ h1 h2 h3 h4 with hf | ⟨v, s2, h5, h6, h7, h8⟩
    · exact .inl hf
    cases h8
    refine .inr ⟨?_, ?_, ?_, .inr ⟨v, ?_⟩, .inr ⟨by simp, ?_⟩, by simpa using h6, by simpa using h7, .inl ?_⟩ <;>
      rw [h5] <;> simp
  | st r =>
    simp only [runOperation, store] at h
    rcases resolved _ h with hf | ⟨ea, s1, h1, h2, h3, h4⟩
    · exact .inl hf
    rcases writing ea _ s1 _ h1 h2 h3 h4 with hf | ⟨s2, h5, q1, q2, q3, q4, q5, q6, q7, q8⟩
    · exact .inl hf
    cases h5
    exact .inr ⟨by simp [q1], by simp [q4], by simp [q5], .inl (by simp [q2]), .inr ⟨by simp, by simp [q3]⟩,
      by simpa using q6, by simpa using q7, by simpa using q8⟩
  | tr src dst =>
    cases h
    exact .inr ⟨by simp, by simp, by simp, .inr ⟨s.reg src, by simp⟩, .inr ⟨by simp, by simp⟩, by simp, by simp,
      .inl (by simp)⟩
  | incr r =>
    cases h
    exact .inr ⟨by simp, by simp, by simp, .inr ⟨s.reg r + 1, by simp⟩, .inr ⟨by simp, by simp⟩, by simp, by simp,
      .inl (by simp)⟩
  | incm =>
    simp only [runOperation, incMem] at h
    rcases resolved _ h with hf | ⟨ea, s1, h1, h2, h3, h4⟩
    · exact .inl hf
    rcases reading ea s1 _ h1 h2 h3 h4 with hf | ⟨v, s2, h5, h6, h7, h8⟩
    · exact .inl hf
    rcases writing ea _ s2 _ h5 h6 h7 h8 with hf | ⟨s3, h9, q1, q2, q3, q4, q5, q6, q7, q8⟩
    · exact .inl hf
    cases h9
    exact .inr ⟨by simp [q1], by simp [q4], by simp [q5], .inr ⟨v + 1, by simp [q2]⟩, .inr ⟨by simp, by simp [q3]⟩,
      by simpa using q6, by simpa using q7, by simpa using q8⟩
  | halt =>
    cases h
    exact .inr ⟨by simp, by simp, by simp, .inl (by simp), .inl ⟨rfl, by simp⟩, by simp, by simp, .inl (by simp)⟩

/-- The entry a lookup gives is a row of the table. -/
theorem mem_of_table_find {t : Table} {op : Byte} {e : Entry} (h : Table.find t op = some e) : (op, e) ∈ t := by
  induction t with
  | nil => cases h
  | cons r t ih =>
    obtain ⟨k, e'⟩ := r
    simp only [Table.find] at h
    split at h
    · simp_all
    · exact List.mem_cons_of_mem _ (ih h)

/-- In a well-formed table every entry is well formed (R82). -/
theorem entry_wf_of_find {t : TableChoice} {op : Byte} {e : Entry} (hw : Table.wf t.rows = true)
    (h : t.find op = some e) : e.wf = true := by
  simp only [Table.wf, Bool.and_eq_true, List.all_eq_true] at hw
  exact hw.1 _ (mem_of_table_find h)

/-- A well-formed entry's operand width is at most 2 (R82, R111). -/
theorem entry_width_le {e : Entry} (h : e.wf = true) : e.width ≤ 2 := by
  obtain ⟨o, m, w⟩ := e
  have : w = m.width := by
    simp only [Entry.wf, Bool.and_eq_true, beq_iff_eq] at h
    exact h.1
  rw [this]
  cases m <;> simp [Mode.width]

/-- Every well-formed table maps 0x00 to the halt opcode (R82 (e), R84). -/
theorem find_brk {t : TableChoice} (h : Table.wf t.rows = true) :
    t.find 0x00 = some ⟨.halt, .noneAddressing, 0⟩ := by
  simp only [Table.wf, Bool.and_eq_true, List.all_eq_true] at h
  have := h.2.2 (0x00, ⟨.halt, .noneAddressing, 0⟩) (by decide)
  simpa [TableChoice.find] using this

theorem step_running {s : State} (h : s.seq = .running) : step s = runInstruction s := by simp only [step, h]

/-- All a step can do when it gives a next state: end in a fatal condition, with `PC` where the fetch left it and the log
only longer, or complete the operation of the entry that the opcode byte has. -/
theorem step_summary {s t : State} (h : step s = .next t) : s.seq = .running ∧
    ((∃ f s1, (s1 = s ∨ ∃ s0, s.sameButLog s0 ∧ s1 = s0.advance 1) ∧ s.log <+: s1.log ∧
      ((memRead s.pc s).value = none ↔ s1 = s) ∧
      (s.cfg.memImpl = .flat → s1.log = s.log) ∧ t = s1.raise f) ∨
     ∃ op e s1, memRead s.pc s = .ok op s1 ∧ s.cfg.dt.find op = some e ∧ s.sameButLog s1 ∧ s.log <+: s1.log ∧
       (s.cfg.memImpl = .flat → s1.log = s.log) ∧
       Completed (e.op = .halt) e.width (s1.advance 1) t) := by
  obtain ⟨hr, h⟩ := step_next h
  refine ⟨hr, ?_⟩
  rcases h with ⟨m, hm, hd, rfl⟩ | ⟨op, s1, hm, h⟩
  · exact .inl ⟨_, s, .inl rfl, List.prefix_refl _, by simp [memRead_io hm], fun _ => rfl, rfl⟩
  · obtain ⟨a, b⟩ := memRead_sameButLog hm
    have hne : ∀ s0 : State, s.sameButLog s0 → ¬ (s0.advance 1 = s) := by
      intro s0 h0 e
      have h1 : (s0.advance 1).pc = s.pc := by rw [e]
      have h2 : s0.pc = s.pc := by rw [h0]
      simp only [State.advance_pc, h2] at h1
      exact absurd h1 (by bv_omega)
    rcases h with ⟨hf, rfl⟩ | ⟨e, hf, ho⟩
    · refine .inl ⟨_, s1.advance 1, .inr ⟨s1, a, rfl⟩, b, ?_, by simpa using memRead_flat_log hm, rfl⟩
      simp [hm, hne s1 a]
    · rcases runOperation_next ho with ⟨s2, f, h1, h2, h3, rfl⟩ | hc
      · refine .inl ⟨f, s2, .inr ⟨{ s1 with log := s2.log }, by rw [State.sameButLog, a], ?_⟩, b.trans h2, ?_, ?_, rfl⟩
        · rw [h1]; rfl
        · have : s2 = ({ s1 with log := s2.log } : State).advance 1 := by rw [h1]; rfl
          simp only [hm, Res.value_ok, reduceCtorEq, false_iff]
          rw [this]
          exact hne _ (by rw [State.sameButLog, a])
        · intro hfl
          rw [h3 (by rw [State.advance_cfg, a]; exact hfl), State.advance_log, memRead_flat_log hm hfl]
      · exact .inr ⟨op, e, s1, hm, hf, a, b, memRead_flat_log hm, hc⟩

end Sys2Proof.Machine
end

