-- ==== Sys2Proof/Tests/Slice0.lean ====
section
/-! SUPPORT. The model's own tests. Expected results come from spec/95_test_vectors.md (a test's name is the vector's id) and
from the Encoding lines of the rules. Then the WellFormed smoke tests, and one witness of the hypotheses of every
statement of Obligations.lean. -/

namespace Sys2Proof.Tests

open Sys2Proof Sys2Proof.Machine

/-! ## Small states -/

/-- A running machine on a memory, with bytes in the cells at `pc` and further cells set first. -/
def start (m : MemImpl) (pc : Word) (bytes : List Byte) (cells : List (Word × Byte)) : State :=
  let s : State := { State.reset with pc := pc, seq := .running, cfg := { Config.standard with memImpl := m } }
  (cells.foldl (fun s c => s.placeBytes c.1 [c.2]) s).placeBytes pc bytes

def underTable (t : TableChoice) (s : State) : State := { s with cfg := { s.cfg with dt := t } }

def underBase (s : State) : State := underTable .base s

def wired (s : State) : State := { s with cfg := { s.cfg with ioDevice := .wired } }

/-- `A`, `X`, `Y`, `P`, `PC` and `SEQ`, as the vectors print them. -/
structure Regs where
  a   : Byte
  x   : Byte
  y   : Byte
  p   : Byte
  pc  : Word
  seq : Seq
  deriving DecidableEq, Repr

def regs (s : State) : Regs := ⟨s.a, s.x, s.y, s.p, s.pc, s.seq⟩

/-- The next state of an outcome. -/
def nextOf : Outcome → Option State
  | .next t => some t
  | .fault _ => none
  | .refused _ => none

/-- The state after one step. -/
def after (s : State) : Option State := nextOf (step s)

/-! ## Decoding: every constructor, its opcode written out bit by bit from its rule's Encoding line -/

theorem test_decode_ldaImm : decode [0b1010_1001, 0xC3] = .instr (.ldaImm 0xC3) [] := by decide
theorem test_decode_ldaZp : decode [0b1010_0101, 0xC3] = .instr (.ldaZp 0xC3) [] := by decide
theorem test_decode_ldaZpX : decode [0b1011_0101, 0xC3] = .instr (.ldaZpX 0xC3) [] := by decide
theorem test_decode_ldaAbs : decode [0b1010_1101, 0x34, 0x12] = .instr (.ldaAbs 0x1234) [] := by decide
theorem test_decode_ldaAbsX : decode [0b1011_1101, 0x34, 0x12] = .instr (.ldaAbsX 0x1234) [] := by decide
theorem test_decode_ldaAbsY : decode [0b1011_1001, 0x34, 0x12] = .instr (.ldaAbsY 0x1234) [] := by decide
theorem test_decode_ldaIndX : decode [0b1010_0001, 0xC3] = .instr (.ldaIndX 0xC3) [] := by decide
theorem test_decode_ldaIndY : decode [0b1011_0001, 0xC3] = .instr (.ldaIndY 0xC3) [] := by decide
theorem test_decode_ldxImm : decode [0b1010_0010, 0xC3] = .instr (.ldxImm 0xC3) [] := by decide
theorem test_decode_ldxZp : decode [0b1010_0110, 0xC3] = .instr (.ldxZp 0xC3) [] := by decide
theorem test_decode_ldxZpY : decode [0b1011_0110, 0xC3] = .instr (.ldxZpY 0xC3) [] := by decide
theorem test_decode_ldxAbs : decode [0b1010_1110, 0x34, 0x12] = .instr (.ldxAbs 0x1234) [] := by decide
theorem test_decode_ldxAbsY : decode [0b1011_1110, 0x34, 0x12] = .instr (.ldxAbsY 0x1234) [] := by decide
theorem test_decode_ldyImm : decode [0b1010_0000, 0xC3] = .instr (.ldyImm 0xC3) [] := by decide
theorem test_decode_ldyZp : decode [0b1010_0100, 0xC3] = .instr (.ldyZp 0xC3) [] := by decide
theorem test_decode_ldyZpX : decode [0b1011_0100, 0xC3] = .instr (.ldyZpX 0xC3) [] := by decide
theorem test_decode_ldyAbs : decode [0b1010_1100, 0x34, 0x12] = .instr (.ldyAbs 0x1234) [] := by decide
theorem test_decode_ldyAbsX : decode [0b1011_1100, 0x34, 0x12] = .instr (.ldyAbsX 0x1234) [] := by decide
theorem test_decode_staZp : decode [0b1000_0101, 0xC3] = .instr (.staZp 0xC3) [] := by decide
theorem test_decode_staZpX : decode [0b1001_0101, 0xC3] = .instr (.staZpX 0xC3) [] := by decide
theorem test_decode_staAbs : decode [0b1000_1101, 0x34, 0x12] = .instr (.staAbs 0x1234) [] := by decide
theorem test_decode_staAbsX : decode [0b1001_1101, 0x34, 0x12] = .instr (.staAbsX 0x1234) [] := by decide
theorem test_decode_staAbsY : decode [0b1001_1001, 0x34, 0x12] = .instr (.staAbsY 0x1234) [] := by decide
theorem test_decode_staIndX : decode [0b1000_0001, 0xC3] = .instr (.staIndX 0xC3) [] := by decide
theorem test_decode_staIndY : decode [0b1001_0001, 0xC3] = .instr (.staIndY 0xC3) [] := by decide
theorem test_decode_stxZp : decode [0b1000_0110, 0xC3] = .instr (.stxZp 0xC3) [] := by decide
theorem test_decode_stxZpY : decode [0b1001_0110, 0xC3] = .instr (.stxZpY 0xC3) [] := by decide
theorem test_decode_stxAbs : decode [0b1000_1110, 0x34, 0x12] = .instr (.stxAbs 0x1234) [] := by decide
theorem test_decode_styZp : decode [0b1000_0100, 0xC3] = .instr (.styZp 0xC3) [] := by decide
theorem test_decode_styZpX : decode [0b1001_0100, 0xC3] = .instr (.styZpX 0xC3) [] := by decide
theorem test_decode_styAbs : decode [0b1000_1100, 0x34, 0x12] = .instr (.styAbs 0x1234) [] := by decide
theorem test_decode_tax : decode [0b1010_1010] = .instr .tax [] := by decide
theorem test_decode_tay : decode [0b1010_1000] = .instr .tay [] := by decide
theorem test_decode_txa : decode [0b1000_1010] = .instr .txa [] := by decide
theorem test_decode_tya : decode [0b1001_1000] = .instr .tya [] := by decide
theorem test_decode_inx : decode [0b1110_1000] = .instr .inx [] := by decide
theorem test_decode_iny : decode [0b1100_1000] = .instr .iny [] := by decide
theorem test_decode_incZp : decode [0b1110_0110, 0xC3] = .instr (.incZp 0xC3) [] := by decide
theorem test_decode_incZpX : decode [0b1111_0110, 0xC3] = .instr (.incZpX 0xC3) [] := by decide
theorem test_decode_incAbs : decode [0b1110_1110, 0x34, 0x12] = .instr (.incAbs 0x1234) [] := by decide
theorem test_decode_incAbsX : decode [0b1111_1110, 0x34, 0x12] = .instr (.incAbsX 0x1234) [] := by decide
theorem test_decode_brk : decode [0b0000_0000] = .instr .brk [] := by decide

/-! ## Steps: the vectors of spec/95_test_vectors.md sections 2.5 to 2.9 -/

theorem test_L_1 :
    (after { start .bus 0x8000 [0xA9, 0x00] [] with a := 0x55, p := 0x80 }).map (fun t => regs t) =
      some ⟨0x00, 0x00, 0x00, 0x02, 0x8002, .running⟩ := by decide
theorem test_L_29 :
    (after (start .bus 0xFFFF [0xA9] [(0x0000, 0x9C)])).map (fun t => regs t) =
      some ⟨0x9C, 0x00, 0x00, 0x80, 0x0001, .running⟩ := by decide
theorem test_L_4 :
    (after (start .bus 0x8000 [0xA2, 0xFF] [])).map (fun t => regs t) =
      some ⟨0x00, 0xFF, 0x00, 0x80, 0x8002, .running⟩ := by decide
theorem test_L_5 :
    (after { start .bus 0x8000 [0xA0, 0x00] [] with y := 0x01 }).map (fun t => regs t) =
      some ⟨0x00, 0x00, 0x00, 0x02, 0x8002, .running⟩ := by decide
theorem test_L_6 :
    (after (start .bus 0x8000 [0xA5, 0x10] [(0x0010, 0x55)])).map (fun t => regs t) =
      some ⟨0x55, 0x00, 0x00, 0x00, 0x8002, .running⟩ := by decide
theorem test_L_7 :
    (after { start .bus 0x8000 [0xB5, 0xFF] [(0x0000, 0x99), (0x0100, 0x11)] with x := 0x01 }).map (fun t => regs t) =
      some ⟨0x99, 0x01, 0x00, 0x80, 0x8002, .running⟩ := by decide
theorem test_L_9 :
    (after (start .bus 0x8000 [0xAD, 0x05, 0x18] [(0x0005, 0xAB)])).map (fun t => regs t) =
      some ⟨0xAB, 0x00, 0x00, 0x80, 0x8003, .running⟩ := by decide
theorem test_L_14 :
    (after { start .bus 0x8000 [0xBD, 0xF0, 0x02] [(0x0310, 0x42)] with x := 0x20 }).map (fun t => regs t) =
      some ⟨0x42, 0x20, 0x00, 0x00, 0x8003, .running⟩ := by decide
theorem test_L_15 :
    (after { start .bus 0x8000 [0xBD, 0xFF, 0xFF] [(0x0001, 0x80)] with x := 0x02 }).map (fun t => regs t) =
      some ⟨0x80, 0x02, 0x00, 0x80, 0x8003, .running⟩ := by decide
theorem test_L_16 :
    (after { start .bus 0x8000 [0xB9, 0xF0, 0x1F] [] with y := 0x10 }).map (fun t => (regs t, t.fault)) =
      some (⟨0x00, 0x00, 0x10, 0x00, 0x8001, .faulted⟩, some (.unimplementedDevice .read 0x2000 0x2000)) := by decide
theorem test_L_17 :
    (after { start .bus 0x8000 [0xA1, 0xFE] [(0x00FF, 0x34), (0x0000, 0x02), (0x0234, 0xC3)] with x := 0x01 }).map
        (fun t => regs t) =
      some ⟨0xC3, 0x01, 0x00, 0x80, 0x8002, .running⟩ := by decide
theorem test_L_18 :
    (after { start .bus 0x8000 [0xB1, 0xFF] [(0x00FF, 0xF0), (0x0000, 0x02), (0x0310, 0x01)] with y := 0x20 }).map
        (fun t => regs t) =
      some ⟨0x01, 0x00, 0x20, 0x00, 0x8002, .running⟩ := by decide
theorem test_L_19 :
    (after { start .bus 0x8000 [0xB1, 0x10] [(0x0010, 0xFF), (0x0011, 0xFF), (0x0000, 0x5A)] with y := 0x01 }).map
        (fun t => regs t) =
      some ⟨0x5A, 0x00, 0x01, 0x00, 0x8002, .running⟩ := by decide
theorem test_L_20 :
    (after { start .bus 0x8000 [0xA6, 0x80] [(0x0080, 0x00)] with x := 0x33 }).map (fun t => regs t) =
      some ⟨0x00, 0x00, 0x00, 0x02, 0x8002, .running⟩ := by decide
theorem test_L_21 :
    (after { start .bus 0x8000 [0xB6, 0xF0] [(0x0010, 0x81)] with y := 0x20 }).map (fun t => regs t) =
      some ⟨0x00, 0x81, 0x20, 0x80, 0x8002, .running⟩ := by decide
theorem test_L_22 :
    (after (start .bus 0x8000 [0xAE, 0xFF, 0x07] [(0x1FFF, 0x44)])).map (fun t => regs t) =
      some ⟨0x00, 0x44, 0x00, 0x00, 0x8003, .running⟩ := by decide
theorem test_L_23 :
    (after { start .bus 0x8000 [0xBE, 0x00, 0x7F] [] with y := 0xFF }).map (fun t => (regs t, t.log)) =
      some (⟨0x00, 0x00, 0xFF, 0x02, 0x8003, .running⟩, [.unmappedRead 0x7FFF]) := by decide
theorem test_L_24 :
    (after { start .bus 0x8000 [0xBE, 0x01, 0x7F] [] with y := 0xFF }).map (fun t => regs t) =
      some ⟨0x00, 0xBE, 0xFF, 0x80, 0x8003, .running⟩ := by decide
theorem test_L_25 :
    (after (start .bus 0x8000 [0xA4, 0x00] [(0x0000, 0xFE)])).map (fun t => regs t) =
      some ⟨0x00, 0x00, 0xFE, 0x80, 0x8002, .running⟩ := by decide
theorem test_L_26 :
    (after { start .bus 0x8000 [0xB4, 0x01] [(0x0000, 0x0C)] with x := 0xFF }).map (fun t => regs t) =
      some ⟨0x00, 0xFF, 0x0C, 0x00, 0x8002, .running⟩ := by decide
theorem test_L_27 :
    (after (start .bus 0x8000 [0xAC, 0xFC, 0xFF] [(0xFFFC, 0x00), (0xFFFD, 0x80)])).map (fun t => regs t) =
      some ⟨0x00, 0x00, 0x00, 0x02, 0x8003, .running⟩ := by decide
theorem test_L_28 :
    (after { start .bus 0x8000 [0xBC, 0xFD, 0xFF] [(0xFFFC, 0x00), (0xFFFD, 0x80)] with x := 0x00 }).map
        (fun t => regs t) =
      some ⟨0x00, 0x00, 0x80, 0x80, 0x8003, .running⟩ := by decide
theorem test_L_12 :
    (after { start .bus 0x8000 [0xAD, 0x02, 0x20] [] with a := 0x77, p := 0x80 }).map (fun t => (regs t, t.fault)) =
      some (⟨0x77, 0x00, 0x00, 0x80, 0x8001, .faulted⟩, some (.unimplementedDevice .read 0x2002 0x2002)) := by decide
theorem test_S_1 :
    (after { start .bus 0x8000 [0x85, 0x10] [(0x0010, 0xFF)] with a := 0x00, p := 0x80 }).map
        (fun t => (regs t, t.readCell (.ram 0x010))) =
      some (⟨0x00, 0x00, 0x00, 0x80, 0x8002, .running⟩, 0x00) := by decide
theorem test_S_2 :
    (after { start .bus 0x8000 [0x85, 0x10] [] with a := 0x80, p := 0x02 }).map
        (fun t => (regs t, t.readCell (.ram 0x010))) =
      some (⟨0x80, 0x00, 0x00, 0x02, 0x8002, .running⟩, 0x80) := by decide
theorem test_S_3 :
    (after { start .bus 0x8000 [0x95, 0xFF] [] with a := 0x12, x := 0x02 }).map
        (fun t => (regs t, t.readCell (.ram 0x001))) =
      some (⟨0x12, 0x02, 0x00, 0x00, 0x8002, .running⟩, 0x12) := by decide
theorem test_S_7 :
    (after { start .flat 0x8000 [0x8D, 0x00, 0x40] [] with a := 0x5A }).map
        (fun t => (regs t, t.readCell (.flat 0x4000))) =
      some (⟨0x5A, 0x00, 0x00, 0x00, 0x8003, .running⟩, 0x5A) := by decide
theorem test_S_8 :
    (after { start .bus 0x8000 [0x8D, 0x06, 0x20] [] with a := 0x5A }).map (fun t => (regs t, t.fault)) =
      some (⟨0x5A, 0x00, 0x00, 0x00, 0x8001, .faulted⟩, some (.unimplementedDevice .write 0x2006 0x2006)) := by decide
theorem test_S_10 :
    (after { start .bus 0x8000 [0x9D, 0xFF, 0x1F] [] with a := 0x01, x := 0x01 }).map (fun t => (regs t, t.fault)) =
      some (⟨0x01, 0x01, 0x00, 0x00, 0x8001, .faulted⟩, some (.unimplementedDevice .write 0x2000 0x2000)) := by decide
theorem test_S_11 :
    (after { start .bus 0x8000 [0x9D, 0xFF, 0xFF] [] with a := 0x01, x := 0x01 }).map
        (fun t => (regs t, t.readCell (.ram 0x000))) =
      some (⟨0x01, 0x01, 0x00, 0x00, 0x8003, .running⟩, 0x01) := by decide
theorem test_S_12 :
    (after { start .bus 0x8000 [0x99, 0x00, 0x10] [] with a := 0xAA, y := 0x05 }).map
        (fun t => (regs t, t.readCell (.ram 0x005))) =
      some (⟨0xAA, 0x00, 0x05, 0x00, 0x8003, .running⟩, 0xAA) := by decide
theorem test_S_13 :
    (after { start .bus 0x8000 [0x81, 0x00] [(0x00FF, 0x00), (0x0000, 0x90)] with a := 0x3C, x := 0xFF }).map
        (fun t => (regs t, t.readCell (.rom 0x1000))) =
      some (⟨0x3C, 0xFF, 0x00, 0x00, 0x8002, .running⟩, 0x3C) := by decide
theorem test_S_14 :
    (after { start .bus 0x8000 [0x91, 0x20] [(0x0020, 0xF8), (0x0021, 0x07)] with a := 0x3C, y := 0x10 }).map
        (fun t => (regs t, t.readCell (.ram 0x008))) =
      some (⟨0x3C, 0x00, 0x10, 0x00, 0x8002, .running⟩, 0x3C) := by decide
theorem test_S_15 :
    (after { start .bus 0x8000 [0x86, 0x00] [] with x := 0xFF }).map (fun t => (regs t, t.readCell (.ram 0x000))) =
      some (⟨0x00, 0xFF, 0x00, 0x00, 0x8002, .running⟩, 0xFF) := by decide
theorem test_S_16 :
    (after { start .bus 0x8000 [0x96, 0x10] [] with x := 0x77, y := 0xF0 }).map
        (fun t => (regs t, t.readCell (.ram 0x000))) =
      some (⟨0x00, 0x77, 0xF0, 0x00, 0x8002, .running⟩, 0x77) := by decide
theorem test_S_17 :
    (after { start .bus 0x8000 [0x8E, 0xFF, 0xFF] [] with x := 0x42 }).map
        (fun t => (regs t, t.readCell (.rom 0x7FFF))) =
      some (⟨0x00, 0x42, 0x00, 0x00, 0x8003, .running⟩, 0x42) := by decide
theorem test_S_18 :
    (after { start .bus 0x8000 [0x84, 0xFF] [] with y := 0x80 }).map (fun t => (regs t, t.readCell (.ram 0x0FF))) =
      some (⟨0x00, 0x00, 0x80, 0x00, 0x8002, .running⟩, 0x80) := by decide
theorem test_S_19 :
    (after { start .bus 0x8000 [0x94, 0x80] [] with x := 0x80, y := 0x09 }).map
        (fun t => (regs t, t.readCell (.ram 0x000))) =
      some (⟨0x00, 0x80, 0x09, 0x00, 0x8002, .running⟩, 0x09) := by decide
theorem test_S_20 :
    (after { start .bus 0x8000 [0x8C, 0xFF, 0x7F] [] with y := 0x09 }).map (fun t => (regs t, t.log)) =
      some (⟨0x00, 0x00, 0x09, 0x00, 0x8003, .running⟩, [.unmappedWrite 0x7FFF 0x09]) := by decide
theorem test_T_1 :
    (after { start .bus 0x8000 [0xAA] [] with a := 0x00, x := 0x55, p := 0x80 }).map (fun t => regs t) =
      some ⟨0x00, 0x00, 0x00, 0x02, 0x8001, .running⟩ := by decide
theorem test_T_3 :
    (after { start .bus 0x8000 [0xAA] [] with a := 0x7F, x := 0x7F, p := 0x02 }).map (fun t => regs t) =
      some ⟨0x7F, 0x7F, 0x00, 0x00, 0x8001, .running⟩ := by decide
theorem test_T_4 :
    (after { start .bus 0x8000 [0xA8] [] with a := 0x80, y := 0x01 }).map (fun t => regs t) =
      some ⟨0x80, 0x00, 0x80, 0x80, 0x8001, .running⟩ := by decide
theorem test_T_6 :
    (after { start .bus 0x8000 [0x8A] [] with a := 0x00, x := 0xFF, p := 0x02 }).map (fun t => regs t) =
      some ⟨0xFF, 0xFF, 0x00, 0x80, 0x8001, .running⟩ := by decide
theorem test_T_7 :
    (after { start .bus 0x8000 [0x8A] [] with a := 0x99, x := 0x00, p := 0x80 }).map (fun t => regs t) =
      some ⟨0x00, 0x00, 0x00, 0x02, 0x8001, .running⟩ := by decide
theorem test_T_8 :
    (after { start .bus 0x8000 [0x98] [] with a := 0x80, y := 0x01, p := 0x80 }).map (fun t => regs t) =
      some ⟨0x01, 0x00, 0x01, 0x00, 0x8001, .running⟩ := by decide
theorem test_T_9 :
    (after { start .bus 0x8000 [0x98] [] with a := 0x80, y := 0x00 }).map (fun t => regs t) =
      some ⟨0x00, 0x00, 0x00, 0x02, 0x8001, .running⟩ := by decide
theorem test_T_10 :
    (after { underBase (start .bus 0x8000 [0xA8] []) with a := 0x42 }).map (fun t => (regs t, t.fault)) =
      some (⟨0x42, 0x00, 0x00, 0x00, 0x8001, .faulted⟩, some (.unimplementedOpcode 0xA8 0x8001)) := by decide
theorem test_I_1 :
    (after { start .bus 0x8000 [0xE8] [] with x := 0xFF, p := 0x80 }).map (fun t => regs t) =
      some ⟨0x00, 0x00, 0x00, 0x02, 0x8001, .running⟩ := by decide
theorem test_I_2 :
    (after { start .bus 0x8000 [0xE8] [] with x := 0x7F }).map (fun t => regs t) =
      some ⟨0x00, 0x80, 0x00, 0x80, 0x8001, .running⟩ := by decide
theorem test_I_5 :
    (after { start .bus 0x8000 [0xC8] [] with y := 0xFF }).map (fun t => regs t) =
      some ⟨0x00, 0x00, 0x00, 0x02, 0x8001, .running⟩ := by decide
theorem test_I_6 :
    (after { start .bus 0x8000 [0xC8] [] with y := 0xFE }).map (fun t => regs t) =
      some ⟨0x00, 0x00, 0xFF, 0x80, 0x8001, .running⟩ := by decide
theorem test_I_7 :
    (after (start .bus 0x8000 [0xE6, 0x10] [(0x0010, 0xFF)])).map (fun t => (regs t, t.readCell (.ram 0x010))) =
      some (⟨0x00, 0x00, 0x00, 0x02, 0x8002, .running⟩, 0x00) := by decide
theorem test_I_8 :
    (after (start .bus 0x8000 [0xE6, 0x10] [(0x0010, 0x7F)])).map (fun t => (regs t, t.readCell (.ram 0x010))) =
      some (⟨0x00, 0x00, 0x00, 0x80, 0x8002, .running⟩, 0x80) := by decide
theorem test_I_9 :
    (after { start .bus 0x8000 [0xF6, 0xF0] [(0x0010, 0x00)] with x := 0x20 }).map
        (fun t => (regs t, t.readCell (.ram 0x010))) =
      some (⟨0x00, 0x20, 0x00, 0x00, 0x8002, .running⟩, 0x01) := by decide
theorem test_I_12 :
    (after { start .bus 0x8000 [0xEE, 0x00, 0x60] [] with p := 0x80 }).map (fun t => (regs t, t.log)) =
      some (⟨0x00, 0x00, 0x00, 0x00, 0x8003, .running⟩, [.unmappedRead 0x6000, .unmappedWrite 0x6000 0x01]) := by decide
theorem test_I_13 :
    (after { start .bus 0x8000 [0xEE, 0x00, 0x20] [] with p := 0x80 }).map (fun t => (regs t, t.fault)) =
      some (⟨0x00, 0x00, 0x00, 0x80, 0x8001, .faulted⟩, some (.unimplementedDevice .read 0x2000 0x2000)) := by decide
theorem test_I_15 :
    (after { start .bus 0x8000 [0xFE, 0xFF, 0x17] [(0x0000, 0xFE)] with x := 0x01 }).map
        (fun t => (regs t, t.readCell (.ram 0x000))) =
      some (⟨0x00, 0x01, 0x00, 0x80, 0x8003, .running⟩, 0xFF) := by decide
theorem test_I_16 :
    (after { start .bus 0x8000 [0xFE, 0xFF, 0xFF] [(0x0000, 0x0F)] with x := 0x01 }).map
        (fun t => (regs t, t.readCell (.ram 0x000))) =
      some (⟨0x00, 0x01, 0x00, 0x00, 0x8003, .running⟩, 0x10) := by decide
theorem test_Q_1 :
    (after { start .bus 0x8000 [0x00] [] with a := 0x12, x := 0x34, y := 0x56, p := 0x80 }).map (fun t => regs t) =
      some ⟨0x12, 0x34, 0x56, 0x80, 0x8001, .halted⟩ := by decide
theorem test_Q_2 :
    (after (start .bus 0xFFFF [0x00] [])).map (fun t => regs t) =
      some ⟨0x00, 0x00, 0x00, 0x00, 0x0000, .halted⟩ := by decide
theorem test_Q_3 :
    (after { start .bus 0x8000 [0xEA] [] with a := 0x12 }).map (fun t => (regs t, t.fault)) =
      some (⟨0x12, 0x00, 0x00, 0x00, 0x8001, .faulted⟩, some (.unimplementedOpcode 0xEA 0x8001)) := by decide
theorem test_Q_6 :
    (after { start .bus 0x2000 [] [] with a := 0x01 }).map (fun t => (regs t, t.fault)) =
      some (⟨0x01, 0x00, 0x00, 0x00, 0x2000, .faulted⟩, some (.unimplementedDevice .read 0x2000 0x2000)) := by decide
theorem test_Q_7 :
    (after (start .bus 0x3FFF [] [])).map (fun t => (regs t, t.fault)) =
      some (⟨0x00, 0x00, 0x00, 0x00, 0x3FFF, .faulted⟩, some (.unimplementedDevice .read 0x3FFF 0x2007)) := by decide
theorem test_Q_8 :
    (after { start .bus 0x4000 [] [] with a := 0x01, p := 0x80 }).map (fun t => (regs t, t.log)) =
      some (⟨0x01, 0x00, 0x00, 0x80, 0x4001, .halted⟩, [.unmappedRead 0x4000]) := by decide
theorem test_Q_11 :
    (after (start .bus 0x1FFF [0x02] [])).map (fun t => (regs t, t.fault)) =
      some (⟨0x00, 0x00, 0x00, 0x00, 0x2000, .faulted⟩, some (.unimplementedOpcode 0x02 0x2000)) := by decide
theorem test_Q_10 :
    (after (start .bus 0x1FFF [0xA5] [])).map (fun t => (regs t, t.fault)) =
      some (⟨0x00, 0x00, 0x00, 0x00, 0x2000, .faulted⟩, some (.unimplementedDevice .read 0x2000 0x2000)) := by decide
theorem test_Q_13 :
    (after { start .bus 0x8000 [0xA1, 0x00] [(0x0010, 0x00), (0x0011, 0x20)] with x := 0x10 }).map
        (fun t => (regs t, t.fault)) =
      some (⟨0x00, 0x10, 0x00, 0x00, 0x8001, .faulted⟩, some (.unimplementedDevice .read 0x2000 0x2000)) := by decide

/-! ## Rejections, and instructions given as numbers -/

theorem test_reject_absent : decode [0xEA] = .reject (.unimplementedOpcode 0xEA) := by decide
theorem test_reject_jmp : decode [0x4C, 0x00, 0x80] = .reject (.unimplementedOpcode 0x4C) := by decide
theorem test_reject_short_word : decode [0xAD, 0x34] = .reject (.operandMissing 0xAD) := by decide
theorem test_reject_empty : decode [] = .reject .noBytes := by decide
theorem test_reject_base : decodeWith .base [0xA8] = .reject (.unimplementedOpcode 0xA8) := by decide
theorem test_table_word : decodeTableWord 24 0x1234AD = some (.ldaAbs 0x1234) := by decide
theorem test_table_word_short : decodeTableWord 8 0xA9 = some (.ldaImm 0x00) := by decide
theorem test_table_word_absent : decodeTableWord 8 0x02 = none := by decide
theorem test_fetch_word_loads : (after (State.reset.withFetchWord 16 0x05A9)).map regs =
    some ⟨0x05, 0x00, 0x00, 0x00, 0x0002, .running⟩ := by decide
theorem test_fetch_word_halts : (after (State.reset.withFetchWord 8 0x00)).map regs =
    some ⟨0x00, 0x00, 0x00, 0x00, 0x0001, .halted⟩ := by decide

/-! ## Well-formedness refuses -/

theorem test_wf_width : Entry.wf ⟨.ld .a, .absolute, 1⟩ = false := by decide
theorem test_wf_operation : Entry.wf ⟨.tr .x .y, .noneAddressing, 0⟩ = false := by decide
theorem test_wf_operation_incr : Entry.wf ⟨.incr .a, .noneAddressing, 0⟩ = false := by decide
theorem test_wf_load_needs_address : Entry.wf ⟨.ld .a, .noneAddressing, 0⟩ = false := by decide
theorem test_wf_store_needs_address : Entry.wf ⟨.st .a, .noneAddressing, 0⟩ = false := by decide
theorem test_wf_store_immediate : Entry.wf ⟨.st .a, .immediate, 1⟩ = false := by decide
theorem test_wf_inc_immediate : Entry.wf ⟨.incm, .immediate, 1⟩ = false := by decide
theorem test_wf_inc_needs_address : Entry.wf ⟨.incm, .noneAddressing, 0⟩ = false := by decide
theorem test_wf_transfer_mode : Entry.wf ⟨.tr .a .x, .zeroPage, 1⟩ = false := by decide
theorem test_wf_increment_mode : Entry.wf ⟨.incr .x, .immediate, 1⟩ = false := by decide
theorem test_wf_halt_mode : Entry.wf ⟨.halt, .immediate, 1⟩ = false := by decide
theorem test_wf_unused_pair : Entry.wf ⟨.st .x, .absoluteX, 2⟩ = true := by decide
theorem test_wf_table_without_base : Table.wf [(0xA9, ⟨.ld .a, .immediate, 1⟩)] = false := by decide
theorem test_wf_table_duplicate : Table.wf (dtBase ++ [(0xAA, ⟨.tr .a .y, .noneAddressing, 0⟩)]) = false := by decide
theorem test_wf_table_entry : Table.wf (dtBase ++ [(0x02, ⟨.halt, .immediate, 1⟩)]) = false := by decide
theorem test_wf_table : Table.wf (dtBase ++ [(0x02, ⟨.halt, .noneAddressing, 0⟩)]) = true := by decide
theorem test_wf_instr_base : Instr.wf .base (.ldxImm 0x00) = false := by decide
theorem test_wf_instr_base_has : Instr.wf .base (.ldaImm 0x00) = true := by decide
theorem test_wf_memory_unsorted : ¬ Memory.wf ramSize [(2, 0x01), (1, 0x01)] := by decide
theorem test_wf_memory_repeated : ¬ Memory.wf ramSize [(1, 0x01), (1, 0x02)] := by decide
theorem test_wf_memory_zero : ¬ Memory.wf ramSize [(1, 0x00)] := by decide
theorem test_wf_memory_outside : ¬ Memory.wf ramSize [(2048, 0x01)] := by decide
theorem test_wf_config_wired : ¬ Config.wf { Config.standard with ioDevice := .wired } := by decide
theorem test_wf_config_table : ¬ Config.wf { Config.standard with dt := .supplied [] } := by decide
theorem test_wf_config_memory : ¬ Config.wf { Config.standard with ramInit := [(1, 0x00)] } := by decide

/-! ## Supplied tables, the wired device, the lifecycle -/

/-- Vector Q-9. -/
theorem test_Q_9 :
    (after (underTable (.supplied [(0xA9, ⟨.ld .a, .noneAddressing, 0⟩)])
        (start .bus 0x8000 [0xA9, 0x05] []))).map (fun t => (regs t, t.fault)) =
      some (⟨0x00, 0x00, 0x00, 0x00, 0x8001, .faulted⟩, some (.invalidAddressingMode 0xA9 0x8001)) := by decide

/-- A supplied entry outside the 42 rows that is well formed runs by its pseudocode (R82, R86). -/
theorem test_supplied_pair :
    (after { underTable (.supplied [(0x9F, ⟨.st .x, .absoluteY, 2⟩)])
        (start .bus 0x8000 [0x9F, 0x00, 0x02] []) with x := 0x77, y := 0x05 }).map
        (fun t => (regs t, t.readCell (.ram 0x205))) =
      some (⟨0x00, 0x77, 0x05, 0x00, 0x8003, .running⟩, 0x77) := by decide

/-- A malformed entry that R222 does not cover is refused (U9). -/
theorem test_supplied_malformed :
    step (underTable (.supplied [(0x00, ⟨.halt, .immediate, 1⟩)]) (start .bus 0x8000 [0x00] [])) =
      .refused .malformedTableEntry := by rfl

theorem test_wired_read : step (wired (start .bus 0x8000 [0xAD, 0x02, 0x20] [])) = .refused .deviceWired := by rfl
theorem test_halted_has_no_step : step State.reset = .fault .sequencerHalted := by rfl
theorem test_faulted_has_no_step : step { State.reset with seq := .faulted } = .fault .sequencerFaulted := by rfl

/-- Vectors K-2 and K-3: `load([A9 05 00])`, `reset`. -/
theorem test_K_2 : (nextOf (loadProgram [0xA9, 0x05, 0x00] State.reset)).map (fun t => (regs t, t.rom)) =
    some (⟨0x00, 0x00, 0x00, 0x00, 0x0000, .halted⟩, [(0, 0xA9), (1, 0x05), (0x7FFD, 0x80)]) := by decide
theorem test_K_3 : (nextOf (resetCommand { State.reset with a := 0x05, p := 0x80, rom := [(0x7FFD, 0x80)] })).map regs =
    some ⟨0x00, 0x00, 0x00, 0x00, 0x8000, .halted⟩ := by decide
/-- Scenario S-A: `load_and_run([0xA9,0x05,0x00])`. -/
theorem test_S_A : (nextOf (loadAndRun 2 [0xA9, 0x05, 0x00] State.reset)).map regs =
    some ⟨0x05, 0x00, 0x00, 0x00, 0x8003, .halted⟩ := by decide
/-- Vector K-7: a host read of 0x2002. -/
theorem test_K_7 : hostRead 0x2002 State.reset = .stop (.next { State.reset with
    fault := some (.unimplementedDevice .read 0x2002 0x2002), seq := .faulted }) := by rfl
/-- Section 2.3: `read_word(0x7FFF)` and `read_word(0xFFFF)`. -/
theorem test_word_across_unmapped : (hostReadWord 0x7FFF { State.reset with rom := [(0, 0x77)] }).value =
    some 0x7700 := by rfl
theorem test_word_wraps : (hostReadWord 0xFFFF { State.reset with ram := [(0, 0xA5)], rom := [(0x7FFF, 0x5A)] }).value =
    some 0xA55A := by rfl

/-! ## Witnesses: for each statement of Obligations.lean with hypotheses, a case that meets them all, clause by clause

Statements whose variables are free of hypotheses need none. -/

/-- A running machine under `Bus` (`wB`) and under `Flat` (`wF`), with nothing in memory. -/
def wB : State := start .bus 0x8000 [] []
def wF : State := start .flat 0x8000 [] []

theorem witness_DecodedBytesAreTheInstructionsEncoding : decode [0xA9, 0x05, 0x00] = .instr (.ldaImm 0x05) [0x00] := by
  decide

theorem witness_NamedDispatchTablesAreWellFormed :
    TableChoice.base.find 0xE8 = some ⟨.incr .x, .noneAddressing, 0⟩ := by decide

theorem witness_StepRunsTheDecodedInstruction :
    (start .bus 0xFFFE [0xAD, 0x34, 0x12] []).seq = .running ∧
    decodeWith (start .bus 0xFFFE [0xAD, 0x34, 0x12] []).cfg.dt [0xAD, 0x34, 0x12] = .instr (.ldaAbs 0x1234) [] ∧
    ∀ k (h : k < [(0xAD : Byte), 0x34, 0x12].length),
      memRead ((start .bus 0xFFFE [0xAD, 0x34, 0x12] []).pc + BitVec.ofNat 16 k) (start .bus 0xFFFE [0xAD, 0x34, 0x12] []) =
        .ok [(0xAD : Byte), 0x34, 0x12][k] (start .bus 0xFFFE [0xAD, 0x34, 0x12] []) := by
  refine ⟨rfl, by decide, fun k h => ?_⟩
  match k, h with
  | 0, _ => rfl
  | 1, _ => rfl
  | 2, _ => rfl

/-- The three cases: a fatal fetch, a byte without an entry, a byte with one. -/
theorem witness_StepFetchesThenDecodes :
    ((start .bus 0x2000 [] []).seq = .running ∧ ∃ t, memRead 0x2000 (start .bus 0x2000 [] []) = .stop (.next t)) ∧
    ((start .bus 0x8000 [0xEA] []).seq = .running ∧
      memRead 0x8000 (start .bus 0x8000 [0xEA] []) = .ok 0xEA (start .bus 0x8000 [0xEA] []) ∧
      (start .bus 0x8000 [0xEA] []).cfg.dt.find 0xEA = none) ∧
    (memRead wB.pc wB = .ok 0x00 wB ∧ wB.cfg.dt.find 0x00 = some ⟨.halt, .noneAddressing, 0⟩) :=
  ⟨⟨rfl, _, rfl⟩, ⟨rfl, rfl, by decide⟩, rfl, by decide⟩

theorem witness_OpcodeFetchFromUnmappedRangeHalts : ∀ a : Word, a = 0x4000 ∨ a = 0x7FFF →
    (start .bus a [] []).seq = .running ∧ (start .bus a [] []).cfg.memImpl = .bus ∧
    Table.wf (start .bus a [] []).cfg.dt.rows = true ∧ 0x4000 ≤ (start .bus a [] []).pc.toNat ∧
    (start .bus a [] []).pc.toNat < 0x8000 := by
  rintro a (rfl | rfl) <;> decide

theorem witness_OnlyRunningStatesHaveAStep : State.reset.seq = .halted ∧
    ({ State.reset with seq := .faulted } : State).seq = .faulted := by decide

theorem witness_DecodedExecutionIsThePseudocode : Entry.wf ⟨.st .x, .absoluteX, 2⟩ = true := by decide

theorem witness_ResolvingNoneAddressingIsFatal :
    (Operation.takesAddress (.ld .a) = true ∧ (⟨.ld .a, .noneAddressing, 0⟩ : Entry).mode = .noneAddressing) ∧
    TableChoice.ext.find 0x00 = some ⟨.halt, .noneAddressing, 0⟩ ∧
    TableChoice.base.find 0x00 = some ⟨.halt, .noneAddressing, 0⟩ := by decide

theorem witness_EveryRunningStateHasANextState : wB.seq = .running ∧ Table.wf wB.cfg.dt.rows = true ∧
    wB.cfg.ioDevice = .none ∧ (nextOf (step wB)).map State.seq = some .halted := by decide

theorem witness_ImmediateLoadsLoadTheirOperand : Instr.immLoad? (.ldxImm 0x7F) = some (.x, 0x7F) := by decide

/-- One instruction with its effective address in each kind of place, for the four clauses. -/
theorem witness_MemoryLoadsLoadTheAddressedByte :
    Instr.memLoad? (.ldaAbsX 0x1FFF) = some (.a, .absoluteX 0x1FFF) ∧
    (effAddr (.absoluteX 0x1FFF) wB = .ok 0x1FFF wB ∧ wB.target 0x1FFF = .cell (.ram 0x7FF)) ∧
    (effAddr (.absoluteX 0x4000) wB = .ok 0x4000 wB ∧ wB.target 0x4000 = .unmapped) ∧
    (effAddr (.absoluteX 0x2000) wB = .ok 0x2000 wB ∧ wB.target 0x2000 = .ioWindow 0x2000 ∧ wB.cfg.ioDevice = .none) ∧
    (effAddr (.absoluteX 0x3FFF) (wired wB) = .ok 0x3FFF (wired wB) ∧ (wired wB).target 0x3FFF = .ioWindow 0x2007 ∧
      (wired wB).cfg.ioDevice = .wired) :=
  ⟨rfl, ⟨rfl, by decide⟩, ⟨rfl, by decide⟩, ⟨rfl, by decide, rfl⟩, rfl, by decide, rfl⟩

theorem witness_StoresWriteTheRegisterToTheAddressedCell :
    Instr.store? (.styAbs 0x8000) = some (.y, .absolute 0x8000) ∧
    (effAddr (.absolute 0x8000) wB = .ok 0x8000 wB ∧ wB.target 0x8000 = .cell (.rom 0)) ∧
    (effAddr (.absolute 0x7FFF) wB = .ok 0x7FFF wB ∧ wB.target 0x7FFF = .unmapped) ∧
    (effAddr (.absolute 0x2008) wB = .ok 0x2008 wB ∧ wB.target 0x2008 = .ioWindow 0x2000 ∧ wB.cfg.ioDevice = .none) ∧
    (effAddr (.absolute 0x2008) (wired wB) = .ok 0x2008 (wired wB) ∧ (wired wB).target 0x2008 = .ioWindow 0x2000 ∧
      (wired wB).cfg.ioDevice = .wired) :=
  ⟨rfl, ⟨rfl, by decide⟩, ⟨rfl, by decide⟩, ⟨rfl, by decide, rfl⟩, rfl, by decide, rfl⟩

theorem witness_MemoryIncrementsAddOneToTheAddressedCell :
    Instr.incMem? (.incAbs 0xFFFF) = some (.absolute 0xFFFF) ∧
    (effAddr (.absolute 0xFFFF) wB = .ok 0xFFFF wB ∧ wB.target 0xFFFF = .cell (.rom 0x7FFF)) ∧
    (effAddr (.absolute 0x6000) wB = .ok 0x6000 wB ∧ wB.target 0x6000 = .unmapped) ∧
    (effAddr (.absolute 0x2002) wB = .ok 0x2002 wB ∧ wB.target 0x2002 = .ioWindow 0x2002 ∧ wB.cfg.ioDevice = .none) ∧
    (effAddr (.absolute 0x2002) (wired wB) = .ok 0x2002 (wired wB) ∧ (wired wB).target 0x2002 = .ioWindow 0x2002 ∧
      (wired wB).cfg.ioDevice = .wired) :=
  ⟨rfl, ⟨rfl, by decide⟩, ⟨rfl, by decide⟩, ⟨rfl, by decide, rfl⟩, rfl, by decide, rfl⟩

/-- For the three rules of entries: a mode that no row of `DT_EXT` pairs with the operation, a data access that completes
and one that is fatal. -/
theorem witness_LoadEntriesLoadFromTheResolvedAddress : Entry.wf ⟨.ld .x, .indirectX, 1⟩ = true ∧
    (∃ t, resolve 0x00 .indirectX (start .bus 0x2000 [] []) = .stop (.next t)) ∧
    (resolve 0x00 .indirectX wB = .ok 0x0000 wB ∧ memRead 0x0000 wB = .ok 0x00 wB) ∧
    (resolve 0x00 .absolute (start .bus 0x8000 [0x02, 0x20] []) = .ok 0x2002 (start .bus 0x8000 [0x02, 0x20] []) ∧
      ∃ t, memRead 0x2002 (start .bus 0x8000 [0x02, 0x20] []) = .stop (.next t)) :=
  ⟨by decide, ⟨_, rfl⟩, ⟨rfl, rfl⟩, rfl, _, rfl⟩

theorem witness_StoreEntriesStoreToTheResolvedAddress : Entry.wf ⟨.st .x, .absoluteX, 2⟩ = true ∧
    (∃ t, resolve 0x00 .absoluteX (start .bus 0x1FFF [] []) = .stop (.next t)) ∧
    (resolve 0x00 .absoluteX wB = .ok 0x0000 wB ∧ ∃ t, memWrite 0x0000 (wB.reg .x) wB = .ok () t) ∧
    (resolve 0x00 .absoluteX (start .bus 0x8000 [0x02, 0x20] []) = .ok 0x2002 (start .bus 0x8000 [0x02, 0x20] []) ∧
      ∃ t, memWrite 0x2002 0x00 (start .bus 0x8000 [0x02, 0x20] []) = .stop (.next t)) :=
  ⟨by decide, ⟨_, rfl⟩, ⟨rfl, _, rfl⟩, rfl, _, rfl⟩

theorem witness_IncrementEntriesIncrementTheResolvedAddress : Entry.wf ⟨.incm, .indirectY, 1⟩ = true ∧
    (∃ t, resolve 0x00 .indirectY (start .bus 0x3FFF [] []) = .stop (.next t)) ∧
    (resolve 0x00 .indirectY wB = .ok 0x0000 wB ∧ memRead 0x0000 wB = .ok 0x00 wB ∧
      ∃ t, memWrite 0x0000 (0x00 + 1) wB = .ok () t) ∧
    (resolve 0x00 .absolute (start .bus 0x8000 [0x02, 0x20] []) = .ok 0x2002 (start .bus 0x8000 [0x02, 0x20] []) ∧
      ∃ t, memRead 0x2002 (start .bus 0x8000 [0x02, 0x20] []) = .stop (.next t)) :=
  ⟨by decide, ⟨_, rfl⟩, ⟨rfl, rfl, _, rfl⟩, rfl, _, rfl⟩

theorem witness_TransfersCopyTheSourceRegister : Instr.transfer? .tya = some (.y, .a) := by decide
theorem witness_RegisterIncrementsAddOne : Instr.incReg? .iny = some .y := by decide

theorem witness_RegisterInstructionsFrame :
    (Instr.immLoad? (.ldaImm 0x05) = some (.a, 0x05) ∧ (nextOf (exec (.ldaImm 0x05) wB)).isSome) ∧
    (Instr.transfer? .tax = some (.a, .x) ∧ (nextOf (exec .tax wB)).isSome) ∧
    (Instr.incReg? .inx = some .x ∧ (nextOf (exec .inx wB)).isSome) := by decide

theorem witness_MemoryLoadsFrame : Instr.memLoad? (.ldyAbs 0x4000) = some (.y, .absolute 0x4000) ∧ wB.seq = .running ∧
    (nextOf (exec (.ldyAbs 0x4000) wB)).map State.seq = some .running := by decide

theorem witness_StoresFrame : Instr.store? (.staIndY 0x10) = some (.a, .indirectY 0x10) ∧ wB.seq = .running ∧
    effAddr (.indirectY 0x10) wB = .ok 0x0000 wB ∧
    (nextOf (exec (.staIndY 0x10) wB)).map State.seq = some .running ∧ ¬ wB.sameCell 0x0000 0x0001 := by
  refine ⟨rfl, rfl, rfl, by decide, ?_⟩
  rintro ⟨c, h1, h2⟩
  rw [← h1] at h2
  exact absurd h2 (by decide)

theorem witness_MemoryIncrementsFrame : Instr.incMem? (.incZpX 0x10) = some (.zeroPageX 0x10) ∧ wB.seq = .running ∧
    effAddr (.zeroPageX 0x10) wB = .ok 0x0010 wB ∧
    (nextOf (exec (.incZpX 0x10) wB)).map State.seq = some .running ∧ ¬ wB.sameCell 0x0010 0x8000 := by
  refine ⟨rfl, rfl, rfl, by decide, ?_⟩
  rintro ⟨c, h1, h2⟩
  rw [← h1] at h2
  exact absurd h2 (by decide)

theorem witness_ReservedFlagsAreWrittenByNoStep :
    (after { start .bus 0x8000 [0xA9, 0x00] [] with p := 0x7D }).map State.p = some 0x7F := by decide
theorem witness_FlagsAreNeverRead : (after (start .bus 0x8000 [0x8D, 0x10, 0x00] [])).isSome = true := by decide
theorem witness_StepsNeverChangeTheConfiguration : (after (start .bus 0x8000 [0xEE, 0x10, 0x00] [])).isSome = true := by
  decide
/-- A step that logs a read. -/
theorem witness_LogIsAppendOnlyAndNeverRead : (after (start .bus 0x8000 [0xAD, 0x00, 0x50] [])).map State.log =
    some [.unmappedRead 0x5000] := by decide

theorem witness_ProgramCounterOnlyAdvances :
    (after (start .bus 0xFFFF [0xA9] [])).map (fun t => (t.seq, t.pc)) = some (.running, 0x0001) := by decide

/-- A fatal step whose opcode fetch succeeded, and one whose opcode fetch was fatal. -/
theorem witness_FatalConditionsArePrecise :
    ((after (start .bus 0x8000 [0xEA] [])).map State.seq = some .faulted ∧
      (memRead 0x8000 (start .bus 0x8000 [0xEA] [])).value = some 0xEA) ∧
    ((after (start .bus 0x2000 [] [])).map State.seq = some .faulted ∧
      (memRead 0x2000 (start .bus 0x2000 [] [])).value = none) := by decide

/-- The ends of the four ranges. -/
theorem witness_BusDecodesEveryAddressToItsRegion :
    ((0x0000 : Word).toNat < 0x2000 ∧ (0x1FFF : Word).toNat < 0x2000) ∧
    (0x2000 ≤ (0x2000 : Word).toNat ∧ (0x3FFF : Word).toNat < 0x4000) ∧
    (0x4000 ≤ (0x4000 : Word).toNat ∧ (0x7FFF : Word).toNat < 0x8000) ∧
    (0x8000 ≤ (0x8000 : Word).toNat ∧ 0x8000 ≤ (0xFFFF : Word).toNat) := by decide

theorem witness_MirrorAddressesShareOneCell : wB.memoryInv ∧ wB.cfg.memImpl = .bus ∧
    (0x07FF : Word).toNat < 0x2000 ∧ (0x1FFF : Word).toNat < 0x2000 ∧
    (0x07FF : Word) &&& 0x07FF = 0x1FFF &&& 0x07FF := by decide

theorem witness_RomWindowReadsAndWritesItsCells : wB.cfg.memImpl = .bus ∧ 0x8000 ≤ (0x8000 : Word).toNat := by decide
theorem witness_UnmappedAccessesAreLoggedOnly : wB.cfg.memImpl = .bus ∧ 0x4000 ≤ (0x4000 : Word).toNat ∧
    (0x4000 : Word).toNat < 0x8000 := by decide
theorem witness_IoWindowAccessesAreFatal :
    (wB.cfg.memImpl = .bus ∧ 0x2000 ≤ (0x3FFF : Word).toNat ∧ (0x3FFF : Word).toNat < 0x4000 ∧ wB.cfg.ioDevice = .none) ∧
    ((wired wB).cfg.memImpl = .bus ∧ (wired wB).cfg.ioDevice = .wired) := by decide
theorem witness_FlatMemoryIsOneCellAnAddress : wF.cfg.memImpl = .flat := by decide

theorem witness_ReadsReturnTheMostRecentWrite : wB.memoryInv ∧
    memWrite 0x0800 0x22 wB = .ok () (wB.writeCell (.ram 0) 0x22) ∧ wB.backed 0x0800 ∧ ¬ wB.sameCell 0x0800 0x0801 := by
  refine ⟨by decide, rfl, ⟨.ram 0, by decide⟩, ?_⟩
  rintro ⟨c, h1, h2⟩
  rw [← h1] at h2
  exact absurd h2 (by decide)

theorem witness_WordHelpersAreTwoByteAccesses :
    (memRead 0xFFFF wB = .ok 0x00 wB ∧ memRead (0xFFFF + 1) wB = .ok 0x00 wB) ∧
    (∃ s1 s2, memWrite 0xFFFF (BitVec.ofNat 8 ((0xA55A : Word).toNat % 256)) wB = .ok () s1 ∧
      memWrite (0xFFFF + 1) (BitVec.ofNat 8 ((0xA55A : Word).toNat / 256)) s1 = .ok () s2) :=
  ⟨⟨rfl, rfl⟩, _, _, rfl, rfl⟩

theorem witness_WordRoundTripInBackedRegions :
    (wB.memoryInv ∧ wB.backed 0x07FF ∧ wB.backed (0x07FF + 1)) ∧
    (wB.target 0x5000 = .unmapped ∧ wB.target (0x5000 + 1) = .unmapped) :=
  ⟨⟨by decide, ⟨.ram 0x7FF, by decide⟩, ⟨.ram 0, by decide⟩⟩, by decide, by decide⟩

theorem witness_WordWriteCutByIoWindowKeepsItsFirstByte : wB.target 0x1FFF = .cell (.ram 0x7FF) ∧
    wB.target (0x1FFF + 1) = .ioWindow 0x2000 ∧ wB.cfg.ioDevice = .none := by decide

theorem witness_ResolverIsPureUpToTheLog :
    resolve 0xBD .absoluteX (start .bus 0x8001 [0xF0, 0x12] []) = .ok 0x12F0 (start .bus 0x8001 [0xF0, 0x12] []) := by rfl

theorem witness_ZeroPageAddressesStayInPageZero :
    memRead (start .bus 0x8001 [0xFF] []).pc (start .bus 0x8001 [0xFF] []) = .ok 0xFF (start .bus 0x8001 [0xFF] []) := by
  rfl

theorem witness_IndirectAddressesReadAPointerInPageZero :
    memRead (start .bus 0x4000 [] []).pc (start .bus 0x4000 [] []) =
      .ok 0x00 ((start .bus 0x4000 [] []).logged (.unmappedRead 0x4000)) := by rfl

/-- The operand bytes at 0xFFFF and 0x0000. -/
theorem witness_AbsoluteAddressesAddTheIndexModulo65536 :
    memRead (start .bus 0xFFFF [0xFF, 0xFF] []).pc (start .bus 0xFFFF [0xFF, 0xFF] []) =
      .ok 0xFF (start .bus 0xFFFF [0xFF, 0xFF] []) ∧
    memRead ((start .bus 0xFFFF [0xFF, 0xFF] []).pc + 1) (start .bus 0xFFFF [0xFF, 0xFF] []) =
      .ok 0xFF (start .bus 0xFFFF [0xFF, 0xFF] []) := ⟨rfl, rfl⟩

theorem witness_ResolverTakesOperandBytesAtPc :
    memRead (start .bus 0xFFFF [0x00, 0x80] []).pc (start .bus 0xFFFF [0x00, 0x80] []) =
      .ok 0x00 (start .bus 0xFFFF [0x00, 0x80] []) ∧
    memRead ((start .bus 0xFFFF [0x00, 0x80] []).pc + 1) (start .bus 0xFFFF [0x00, 0x80] []) =
      .ok 0x80 (start .bus 0xFFFF [0x00, 0x80] []) ∧
    (memRead 0x1FFF (start .bus 0x1FFF [0x34] []) = .ok 0x34 (start .bus 0x1FFF [0x34] []) ∧
      ∃ t, memRead (0x1FFF + 1) (start .bus 0x1FFF [0x34] []) = .stop (.next t)) ∧
    ∃ t, memRead 0x2000 (start .bus 0x2000 [] []) = .stop (.next t) := ⟨rfl, rfl, ⟨rfl, _, rfl⟩, _, rfl⟩

theorem witness_CreateGivesTheInitialState : Config.standard.wf ∧ Config.standard.memImpl = .bus ∧
    Config.wf { Config.standard with memImpl := .flat } := by decide

/-- The five ways not to be accepted. -/
theorem witness_UnacceptedConfigurationsAreRefused : Table.wf (TableChoice.supplied []).rows = false ∧
    (wired wB).cfg.ioDevice = .wired ∧ ¬ Memory.wf ramSize [(2048, 0x01)] ∧ ¬ Memory.wf romSize [(1, 0x00)] ∧
    ¬ Memory.wf flatSize [(2, 0x01), (1, 0x01)] := by decide

theorem witness_LoadPlacesTheImageAndTheVector : State.reset.seq = .halted ∧ State.reset.memoryInv ∧
    ([] : List Byte).length ≤ 0x8000 ∧ (List.replicate 0x8000 (0xE8 : Byte)).length ≤ 0x8000 ∧
    0x8000 < (List.replicate 0x8001 (0xE8 : Byte)).length :=
  ⟨rfl, by decide, by decide, by rw [List.length_replicate], by rw [List.length_replicate]; decide⟩

theorem witness_ResetZeroesRegistersAndSamplesTheVector : ({ State.reset with a := 0x05 } : State).seq = .halted := by rfl

theorem witness_LoadAndRunStartsAtTheImageBase : ({ State.reset with x := 0xFF } : State).seq = .halted ∧
    ({ State.reset with x := 0xFF } : State).memoryInv ∧ [(0xA9 : Byte), 0x05, 0x00].length ≤ 0x8000 := by decide

theorem witness_CommandsActOnlyWhileHalted : (State.reset.seq = .halted ∧ [(0xA9 : Byte), 0x05, 0x00].length ≤ 0x8000) ∧
    ({ State.reset with seq := .faulted } : State).seq = .faulted ∧ wB.seq = .running := by decide

theorem read_of_all {m : Memory} {v : Byte} (h : ∀ c ∈ m, c.2 = v) {k : Nat} (hk : ∃ c ∈ m, c.1 = k) :
    Memory.read m k = v := by
  induction m with
  | nil => obtain ⟨c, hc, -⟩ := hk; cases hc
  | cons d t ih =>
    obtain ⟨j, b⟩ := d
    rw [Memory.read]
    split
    · exact h (j, b) (by simp)
    · rename_i hj
      refine ih (fun c hc => h c (by simp [hc])) ?_
      obtain ⟨c, hc, he⟩ := hk
      rcases List.mem_cons.1 hc with rfl | hc
      · exact absurd he hj
      · exact ⟨c, hc, he⟩

/-- A memory whose first `n` cells hold 0xE8. -/
@[irreducible] def allE8 (n : Nat) : Memory := (List.range n).map fun i => (i, 0xE8)

theorem read_allE8 {n k : Nat} (h : k < n) : Memory.read (allE8 n) k = 0xE8 := by
  unfold allE8
  refine read_of_all (fun c hc => ?_) ⟨(k, 0xE8), List.mem_map.2 ⟨k, List.mem_range.2 h, rfl⟩, rfl⟩
  obtain ⟨i, -, rfl⟩ := List.mem_map.1 hc
  rfl

theorem witness_BusRunsEndWithin40961StepsFlatRunsNeedNot :
    (wB.cfg.memImpl = .bus ∧ wB.cfg.ioDevice = .none ∧ Table.wf wB.cfg.dt.rows = true) ∧
    (wF.cfg.memImpl = .flat ∧ Table.wf wF.cfg.dt.rows = true ∧ wF.seq = .running ∧
      ∀ addr : Word, Memory.read ({ wF with flat := allE8 65536 } : State).flat addr.toNat = 0xE8) :=
  ⟨⟨rfl, rfl, by decide⟩, rfl, by decide, rfl, fun addr => read_allE8 addr.isLt⟩

theorem witness_StepKeepsTheInvariant : wB.Inv ∧ (after wB).isSome = true := by decide

theorem witness_CommandsKeepTheInvariant : create Config.standard = .next (State.created Config.standard) ∧
    State.reset.Inv ∧ ((nextOf (loadProgram [0x00] State.reset)).isSome = true ∧
      (nextOf (resetCommand State.reset)).isSome = true ∧ (nextOf (startRun State.reset)).isSome = true ∧
      (nextOf (runCommand 1 State.reset)).isSome = true ∧
      (nextOf (loadAndRun 1 [0x00] State.reset)).isSome = true) ∧
    (hostWrite 0x0000 0x01 State.reset = .ok () (State.reset.writeCell (.ram 0) 0x01) ∧
      hostRead 0x0000 State.reset = .ok 0x00 State.reset ∧
      (∃ t, hostWrite 0x2000 0x01 State.reset = .stop (.next t)) ∧
      ∃ t, hostRead 0x2000 State.reset = .stop (.next t)) ∧
    (hostReadWord 0x0000 State.reset = .ok 0x0000 State.reset ∧
      (∃ t, hostReadWord 0x1FFF State.reset = .stop (.next t)) ∧
      (∃ t, hostWriteWord 0x0000 0xABCD State.reset = .ok () t ∧ t.ram = [(0, 0xCD), (1, 0xAB)]) ∧
      ∃ t, hostWriteWord 0x1FFF 0xABCD State.reset = .stop (.next t) ∧ t.ram = [(0x7FF, 0xCD)]) ∧
    State.reset.seq = .halted ∧ State.reset.cfg.memImpl = .bus ∧ State.reset.cfg.ioDevice = .none := by
  refine ⟨?_, by decide, by decide, ⟨rfl, rfl, ⟨_, rfl⟩, _, rfl⟩, ⟨rfl, ⟨_, rfl⟩, ⟨_, rfl, by decide⟩, _, rfl, by decide⟩,
    by decide⟩
  rw [create, if_pos (by decide)]

/-- Both clauses: LDA $zp with its opcode at 0x1FFF, LDA $addr with its opcode at 0x1FFE. -/
theorem witness_OperandByteInIoWindowIsFatal :
    (∀ s ∈ [start .bus 0x1FFF [0xA5] [], start .bus 0x1FFE [0xAD, 0x00] []],
      s.seq = .running ∧ s.cfg.memImpl = .bus ∧ s.cfg.ioDevice = .none) ∧
    ((start .bus 0x1FFF [0xA5] []).byteAt 0x1FFF = some 0xA5 ∧
      TableChoice.ext.find 0xA5 = some ⟨.ld .a, .zeroPage, 1⟩ ∧ Entry.wf ⟨.ld .a, .zeroPage, 1⟩ = true) ∧
    (start .bus 0x1FFE [0xAD, 0x00] []).byteAt 0x1FFE = some 0xAD ∧
      TableChoice.ext.find 0xAD = some ⟨.ld .a, .absolute, 2⟩ ∧ Entry.wf ⟨.ld .a, .absolute, 2⟩ = true := by decide

end Sys2Proof.Tests
end

/-! ## The family 10_state.md: status register, program counter, log and invariant

The invariants are read off the model's inversion of a step, `step_summary`. The two noninterference statements are one
simulation: a relation that no observation tells apart and that every update keeps is kept by a step. -/

namespace Sys2Proof.Machine

/-! ### The status register -/

/-- Bit 7 of a byte is set exactly from 0x80 up. -/
theorem getLsbD_seven_iff (v : Byte) : v.getLsbD 7 = true ↔ 0x80 ≤ v.toNat := by
  rw [show v.getLsbD 7 = v.msb from (BitVec.msb_eq_getLsbD_last v).symm, BitVec.msb_eq_decide, decide_eq_true_iff]

/-- Settles O27, from the two flags `SetZN` writes and the bits it leaves. -/
theorem setZNWritesZeroAndNegativeOnly : Obligations.SetZNWritesZeroAndNegativeOnly := by
  intro v p
  have hZ : flagZ (statusZN v p) = true ↔ v = 0x00 := by rw [flagZ_statusZN, decide_eq_true_iff]
  have hN : flagN (statusZN v p) = true ↔ 0x80 ≤ v.toNat := by rw [flagN_statusZN, getLsbD_seven_iff]
  refine ⟨hZ, hN, flagN_statusZN v p, fun k h1 h7 => statusZN_other v p h1 h7, ?_⟩
  rintro ⟨hz, hn⟩
  obtain rfl := hZ.1 hz
  exact absurd (hN.1 hn) (by decide)

/-! ### What a step leaves -/

/-- `step_summary` with the state reached spelled out: a fatal condition changes `PC` and the log at most, and else the
operation of the fetched byte's entry completes from the state after the fetch, which under `Flat` has logged nothing. -/
theorem step_fatal_or_completed {s t : State} (h : step s = .next t) :
    s.seq = .running ∧
      ((∃ f pc l, (s.cfg.memImpl = .flat → l = s.log) ∧ t = State.raise { s with pc := pc, log := l } f) ∨
        ∃ op e l, memRead s.pc s = .ok op { s with log := l } ∧ s.cfg.dt.find op = some e ∧
          (s.cfg.memImpl = .flat → l = s.log) ∧
          Completed (e.op = .halt) e.width (State.advance { s with log := l } 1) t) := by
  obtain ⟨hr, ⟨f, s1, hs1, -, -, hl, rfl⟩ | ⟨op, e, s1, hm, hf, hs1, -, hl, hc⟩⟩ := step_summary h
  · refine ⟨hr, .inl ?_⟩
    rcases hs1 with rfl | ⟨s0, h0, rfl⟩
    · exact ⟨f, s1.pc, s1.log, hl, rfl⟩
    · refine ⟨f, s.pc + 1, s0.log, hl, ?_⟩
      rw [h0]
      rfl
  · exact ⟨hr, .inr ⟨op, e, s1.log, hs1 ▸ hm, hf, hl, hs1 ▸ hc⟩⟩

/-- A step leaves `P` alone or applies `SetZN` to it (R17, R18). -/
theorem step_status {s t : State} (h : step s = .next t) : t.p = s.p ∨ ∃ v, t.p = statusZN v s.p := by
  obtain ⟨-, ⟨f, pc, l, -, rfl⟩ | ⟨op, e, l, -, -, -, hc⟩⟩ := step_fatal_or_completed h
  · exact .inl rfl
  · exact hc.status

/-- A step changes no bit of `P` but Z and N (R17). -/
theorem step_status_other {s t : State} (h : step s = .next t) {k : Nat} (h1 : k ≠ 1) (h7 : k ≠ 7) :
    t.p.getLsbD k = s.p.getLsbD k := by
  rcases step_status h with hp | ⟨v, hp⟩
  · rw [hp]
  · rw [hp, statusZN_other v s.p h1 h7]

/-- Settles O28: the reserved bits are bits other than Z and N, which no step changes. -/
theorem reservedFlagsAreWrittenByNoStep : Obligations.ReservedFlagsAreWrittenByNoStep := by
  intro s t h
  refine ⟨?_, ?_, ?_, ?_, ?_, ?_⟩ <;> exact step_status_other h (by decide) (by decide)

/-- Settles O30: the fetch advances `PC` by 1 and a completed operation by its entry's width. -/
theorem programCounterOnlyAdvances : Obligations.ProgramCounterOnlyAdvances := by
  intro s t h ht
  obtain ⟨-, ⟨f, pc, l, -, rfl⟩ | ⟨op, e, l, hm, hf, -, hc⟩⟩ := step_fatal_or_completed h
  · exact absurd rfl ht
  · refine ⟨op, e, by rw [hm, Res.value_ok], hf, ?_⟩
    rw [hc.pc, State.advance_pc]
    simp only [BitVec.toNat_add, BitVec.toNat_ofNat]
    omega

/-! ### The invariant -/

/-- The memory's invariant depends on the arrays and the parameters, and under `Flat` on the log. -/
theorem memoryInv_congr {s t : State} (h : s.memoryInv) (hm : t.ram = s.ram ∧ t.rom = s.rom ∧ t.flat = s.flat)
    (hc : t.cfg = s.cfg) (hl : s.cfg.memImpl = .flat → t.log = s.log) : t.memoryInv := by
  obtain ⟨hram, hrom, hflat⟩ := hm
  obtain ⟨hwf, hbus, hempty⟩ := h
  rw [State.memoryInv, hram, hrom, hflat, hc]
  refine ⟨hwf, hbus, fun hf => ?_⟩
  rw [hl hf]
  exact hempty hf

/-- A completed operation keeps the memory's invariant: it writes one decoded cell at most. -/
theorem Completed.memoryInv {halts : Prop} {w : Nat} {s t : State} (hc : Completed halts w s t)
    (h : s.memoryInv) : t.memoryInv := by
  rcases hc.memory with hm | ⟨addr, c, v, ht, hm⟩
  · exact memoryInv_congr h hm hc.cfg hc.flat
  · refine memoryInv_congr (memoryInv_writeCell h ht v) hm ?_ ?_
    · rw [hc.cfg, State.writeCell_cfg]
    · rw [State.writeCell_cfg, State.writeCell_log]
      exact hc.flat

/-- A step keeps the memory's invariant (R21, R54). -/
theorem step_memoryInv {s t : State} (hi : s.memoryInv) (h : step s = .next t) : t.memoryInv := by
  obtain ⟨-, ⟨f, pc, l, hl, rfl⟩ | ⟨op, e, l, -, -, hl, hc⟩⟩ := step_fatal_or_completed h
  · exact memoryInv_congr hi ⟨rfl, rfl, rfl⟩ rfl hl
  · exact hc.memoryInv (memoryInv_congr hi ⟨rfl, rfl, rfl⟩ rfl hl)

/-- A step keeps the reserved bits of `P` at 0, with Z and N not both 1 (R17, R18). -/
theorem step_statusInv {s t : State} (hi : s.statusInv) (h : step s = .next t) : t.statusInv := by
  rcases step_status h with hp | ⟨v, hp⟩
  · rw [State.statusInv, hp]
    exact hi
  · rw [State.statusInv, hp]
    exact statusZN_cases v hi

/-- A completed operation of a running machine does not end in `Faulted`. -/
theorem Completed.seq_ne_faulted {halts : Prop} {w : Nat} {s t : State} (hc : Completed halts w s t)
    (hr : s.seq = .running) : t.seq ≠ .faulted := by
  rcases hc.seq with ⟨-, hq⟩ | ⟨-, hq⟩
  · simp [hq]
  · simp [hq, hr]

/-- A step keeps the latch set exactly in `Faulted`: only a fatal condition sets either, and it sets both (R20, R225). -/
theorem step_latchInv {s t : State} (hi : s.latchInv) (h : step s = .next t) : t.latchInv := by
  obtain ⟨hr, ⟨f, pc, l, -, rfl⟩ | ⟨op, e, l, -, -, -, hc⟩⟩ := step_fatal_or_completed h
  · exact iff_of_true rfl rfl
  · refine iff_of_false (fun hf => ?_) (hc.seq_ne_faulted hr)
    rw [hc.fault] at hf
    exact absurd (hr.symm.trans (hi.1 hf)) (by decide)

/-- Settles O56, part by part: memory, status register and latch. -/
theorem stepKeepsTheInvariant : Obligations.StepKeepsTheInvariant := by
  rintro s t ⟨hm, hp, hf⟩ h
  exact ⟨step_memoryInv hm h, step_statusInv hp h, step_latchInv hf h⟩

/-- Settles O55: memory lists nothing, every register is zero and the latch is empty. -/
theorem resetStateMeetsTheInvariant : Obligations.ResetStateMeetsTheInvariant :=
  ⟨reset_memoryInv, .inl rfl, by decide⟩

/-- Settles O49: `create` accepts the default parameters, and `reset` samples a vector whose cells are unwritten. -/
theorem resetStateIsCreateThenReset : Obligations.ResetStateIsCreateThenReset :=
  ⟨State.created Config.standard, by rw [create, if_pos (by decide)], rfl⟩

/-! ### Noninterference -/

/-- `R` relates states that differ only in what no rule reads: whatever a step observes is the same in both, and every
update of a state, made to both, keeps them related. -/
structure Unread (R : State → State → Prop) : Prop where
  reg       : ∀ {s s'}, R s s' → ∀ r, s'.reg r = s.reg r
  pc        : ∀ {s s'}, R s s' → s'.pc = s.pc
  seq       : ∀ {s s'}, R s s' → s'.seq = s.seq
  cfg       : ∀ {s s'}, R s s' → s'.cfg = s.cfg
  readCell  : ∀ {s s'}, R s s' → ∀ c, s'.readCell c = s.readCell c
  setReg    : ∀ {s s'}, R s s' → ∀ r v, R (s.setReg r v) (s'.setReg r v)
  setZN     : ∀ {s s'}, R s s' → ∀ v, R (s.setZN v) (s'.setZN v)
  advance   : ∀ {s s'}, R s s' → ∀ n, R (s.advance n) (s'.advance n)
  halted    : ∀ {s s'}, R s s' → R { s with seq := .halted } { s' with seq := .halted }
  raise     : ∀ {s s'}, R s s' → ∀ f, R (s.raise f) (s'.raise f)
  logged    : ∀ {s s'}, R s s' → ∀ e, R (s.logged e) (s'.logged e)
  writeCell : ∀ {s s'}, R s s' → ∀ c v, R (s.writeCell c v) (s'.writeCell c v)

/-- The same answer, with related next states. -/
inductive OutcomeRel (R : State → State → Prop) : Outcome → Outcome → Prop
  | next {s s' : State} (h : R s s') : OutcomeRel R (.next s) (.next s')
  | fault (r : Fault) : OutcomeRel R (.fault r) (.fault r)
  | refused (r : Refusal) : OutcomeRel R (.refused r) (.refused r)

/-- The same value with related states, or related outcomes. -/
inductive ResRel (R : State → State → Prop) {α : Type} : Res α → Res α → Prop
  | ok (v : α) {s s' : State} (h : R s s') : ResRel R (.ok v s) (.ok v s')
  | stop {o o' : Outcome} (h : OutcomeRel R o o') : ResRel R (.stop o) (.stop o')

/-! One lemma per function of the model: related states give related results. -/

section Simulation

variable {R : State → State → Prop} {s s' : State} {α β : Type}

theorem OutcomeRel.exists_next {t : State} {o : Outcome} (h : OutcomeRel R (.next t) o) :
    ∃ t', o = .next t' ∧ R t t' := by
  cases h with
  | next ht => exact ⟨_, rfl, ht⟩

theorem ResRel.bind {r r' : Res α} (h : ResRel R r r') {k : α → State → Res β}
    (hk : ∀ v {u u'}, R u u' → ResRel R (k v u) (k v u')) : ResRel R (r.bind k) (r'.bind k) := by
  cases h with
  | ok v hs => exact hk v hs
  | stop ho => exact .stop ho

theorem ResRel.finish {r r' : Res α} (h : ResRel R r r') {k : α → State → Outcome}
    (hk : ∀ v {u u'}, R u u' → OutcomeRel R (k v u) (k v u')) : OutcomeRel R (r.finish k) (r'.finish k) := by
  cases h with
  | ok v hs => exact hk v hs
  | stop ho => exact ho

variable (hR : Unread R)
include hR

theorem ioAccess_rel (h : R s s') (kind : AccessKind) (addr m : Word) :
    OutcomeRel R (ioAccess kind addr m s) (ioAccess kind addr m s') := by
  cases hd : s.cfg.ioDevice with
  | none =>
    rw [ioAccess_none hd, ioAccess_none (hR.cfg h ▸ hd)]
    exact .next (hR.raise h _)
  | wired =>
    rw [ioAccess_wired hd, ioAccess_wired (hR.cfg h ▸ hd)]
    exact .refused _

theorem memRead_rel (h : R s s') (addr : Word) : ResRel R (memRead addr s) (memRead addr s') := by
  have ht := target_congr (hR.cfg h) addr
  cases hs : s.target addr with
  | cell c =>
    rw [memRead_cell hs, memRead_cell (ht.trans hs), hR.readCell h]
    exact .ok _ h
  | ioWindow m =>
    rw [memRead_io hs, memRead_io (ht.trans hs)]
    exact .stop (ioAccess_rel hR h _ _ _)
  | unmapped =>
    rw [memRead_unmapped hs, memRead_unmapped (ht.trans hs)]
    exact .ok _ (hR.logged h _)

theorem memWrite_rel (h : R s s') (addr : Word) (v : Byte) :
    ResRel R (memWrite addr v s) (memWrite addr v s') := by
  have ht := target_congr (hR.cfg h) addr
  cases hs : s.target addr with
  | cell c =>
    rw [memWrite_cell hs, memWrite_cell (ht.trans hs)]
    exact .ok _ (hR.writeCell h _ _)
  | ioWindow m =>
    rw [memWrite_io hs, memWrite_io (ht.trans hs)]
    exact .stop (ioAccess_rel hR h _ _ _)
  | unmapped =>
    rw [memWrite_unmapped hs, memWrite_unmapped (ht.trans hs)]
    exact .ok _ (hR.logged h _)

theorem readWord_rel (h : R s s') (addr : Word) : ResRel R (readWord addr s) (readWord addr s') :=
  (memRead_rel hR h addr).bind fun _ _ _ h1 => (memRead_rel hR h1 _).bind fun _ _ _ h2 => .ok _ h2

theorem readPointer_rel (h : R s s') (ptr : Byte) : ResRel R (readPointer ptr s) (readPointer ptr s') :=
  (memRead_rel hR h _).bind fun _ _ _ h1 => (memRead_rel hR h1 _).bind fun _ _ _ h2 => .ok _ h2

theorem effAddr_rel (h : R s s') (o : MemOperand) : ResRel R (effAddr o s) (effAddr o s') := by
  have hx : s'.x = s.x := hR.reg h .x
  have hy : s'.y = s.y := hR.reg h .y
  cases o with
  | zeroPage d8 => exact .ok _ h
  | absolute a16 => exact .ok _ h
  | zeroPageX d8 => simp only [effAddr, hx]; exact .ok _ h
  | zeroPageY d8 => simp only [effAddr, hy]; exact .ok _ h
  | absoluteX a16 => simp only [effAddr, hx]; exact .ok _ h
  | absoluteY a16 => simp only [effAddr, hy]; exact .ok _ h
  | indirectX d8 => simp only [effAddr, hx]; exact readPointer_rel hR h _
  | indirectY d8 =>
    refine (readPointer_rel hR h d8).bind fun base u u' hu => ?_
    rw [show u'.y = u.y from hR.reg hu .y]
    exact .ok _ hu

theorem resolve_rel (h : R s s') (opcode : Byte) (m : Mode) :
    ResRel R (resolve opcode m s) (resolve opcode m s') := by
  have byte : ∀ k : Byte → MemOperand, ResRel R ((memRead s.pc s).bind fun d8 => effAddr (k d8))
      ((memRead s.pc s').bind fun d8 => effAddr (k d8)) :=
    fun k => (memRead_rel hR h s.pc).bind fun d8 _ _ h1 => effAddr_rel hR h1 (k d8)
  have word : ∀ k : Word → MemOperand, ResRel R ((readWord s.pc s).bind fun a16 => effAddr (k a16))
      ((readWord s.pc s').bind fun a16 => effAddr (k a16)) :=
    fun k => (readWord_rel hR h s.pc).bind fun a16 _ _ h1 => effAddr_rel hR h1 (k a16)
  simp only [resolve, hR.pc h]
  cases m with
  | immediate => exact .ok _ h
  | zeroPage => exact byte _
  | zeroPageX => exact byte _
  | zeroPageY => exact byte _
  | indirectX => exact byte _
  | indirectY => exact byte _
  | absolute => exact word _
  | absoluteX => exact word _
  | absoluteY => exact word _
  | noneAddressing => exact .stop (.next (hR.raise h _))

theorem runOperation_rel (h : R s s') (opcode : Byte) (e : Entry) :
    OutcomeRel R (runOperation opcode e s) (runOperation opcode e s') := by
  obtain ⟨o, m, w⟩ := e
  have hea := resolve_rel hR h opcode m
  cases o with
  | ld r =>
    exact hea.finish fun addr _ _ h1 => (memRead_rel hR h1 addr).finish fun v _ _ h2 =>
      .next (hR.advance (hR.setZN (hR.setReg h2 r v) v) w)
  | st r =>
    refine hea.finish fun addr u u' h1 => ?_
    rw [hR.reg h1]
    exact (memWrite_rel hR h1 addr _).finish fun _ _ _ h2 => .next (hR.advance h2 w)
  | tr src dst =>
    simp only [runOperation, transfer, hR.reg h]
    exact .next (hR.advance (hR.setZN (hR.setReg h _ _) _) w)
  | incr r =>
    simp only [runOperation, incReg, hR.reg h]
    exact .next (hR.advance (hR.setZN (hR.setReg h _ _) _) w)
  | incm =>
    exact hea.finish fun addr _ _ h1 => (memRead_rel hR h1 addr).finish fun v _ _ h2 =>
      (memWrite_rel hR h2 addr (v + 1)).finish fun _ _ _ h3 => .next (hR.advance (hR.setZN h3 _) w)
  | halt => exact .next (hR.advance (hR.halted h) w)

theorem runEntry_rel (h : R s s') (opcode : Byte) (e : Entry) :
    OutcomeRel R (runEntry opcode e s) (runEntry opcode e s') := by
  cases hsh : e.shape with
  | some sh =>
    rw [runEntry_of_shape hsh, runEntry_of_shape hsh]
    exact runOperation_rel hR h opcode e
  | none =>
    simp only [runEntry, hsh]
    split
    · exact runOperation_rel hR h opcode e
    · exact .refused _

theorem decodeAndRun_rel (h : R s s') (opcode : Byte) :
    OutcomeRel R (decodeAndRun opcode s) (decodeAndRun opcode s') := by
  simp only [decodeAndRun, hR.cfg h, hR.pc h]
  cases s.cfg.dt.find opcode with
  | none => exact .next (hR.raise h _)
  | some e => exact runEntry_rel hR h opcode e

theorem fetchOpcode_rel (h : R s s') : ResRel R (fetchOpcode s) (fetchOpcode s') := by
  simp only [fetchOpcode, hR.pc h]
  exact (memRead_rel hR h s.pc).bind fun op _ _ h1 => .ok op (hR.advance h1 1)

/-- Steps from states that differ in what no rule reads give the same answer, with next states that differ in it only. -/
theorem step_rel (h : R s s') : OutcomeRel R (step s) (step s') := by
  simp only [step, hR.seq h]
  cases s.seq with
  | running => exact (fetchOpcode_rel hR h).finish fun op _ _ h1 => decodeAndRun_rel hR h1 op
  | halted => exact .fault _
  | faulted => exact .fault _

end Simulation

/-- The two states differ in `P` at most. -/
def SameButStatus (s s' : State) : Prop := ∃ q, s' = { s with p := q }

/-- `P` is not read: `SetZN` computes only `P` itself from it. -/
theorem unread_sameButStatus : Unread SameButStatus where
  reg := by rintro s _ ⟨q, rfl⟩ r; cases r <;> rfl
  pc := by rintro s _ ⟨q, rfl⟩; rfl
  seq := by rintro s _ ⟨q, rfl⟩; rfl
  cfg := by rintro s _ ⟨q, rfl⟩; rfl
  readCell := by rintro s _ ⟨q, rfl⟩ c; cases c <;> rfl
  setReg := by rintro s _ ⟨q, rfl⟩ r v; exact ⟨q, by cases r <;> rfl⟩
  setZN := by rintro s _ ⟨q, rfl⟩ v; exact ⟨statusZN v q, rfl⟩
  advance := by rintro s _ ⟨q, rfl⟩ n; exact ⟨q, rfl⟩
  halted := by rintro s _ ⟨q, rfl⟩; exact ⟨q, rfl⟩
  raise := by rintro s _ ⟨q, rfl⟩ f; exact ⟨q, rfl⟩
  logged := by rintro s _ ⟨q, rfl⟩ e; exact ⟨q, rfl⟩
  writeCell := by rintro s _ ⟨q, rfl⟩ c v; exact ⟨q, by cases c <;> rfl⟩

/-- Settles O29, by the simulation of states that differ in `P`. -/
theorem flagsAreNeverRead : Obligations.FlagsAreNeverRead := by
  intro s t q h
  have hrel := step_rel unread_sameButStatus (s := s) ⟨q, rfl⟩
  rw [h] at hrel
  obtain ⟨_, ht, q', rfl⟩ := hrel.exists_next
  exact ⟨q', ht⟩

/-- The two states differ in the log at most, and since the logs `l` and `l'` both have had the same events appended. -/
def SameAppended (l l' : List LogEvent) (s s' : State) : Prop :=
  ∃ events, s.log = l ++ events ∧ s' = { s with log := l' ++ events }

/-- The log is not read, and only appended to (R23). -/
theorem unread_sameAppended (l l' : List LogEvent) : Unread (SameAppended l l') where
  reg := by rintro s _ ⟨es, hl, rfl⟩ r; cases r <;> rfl
  pc := by rintro s _ ⟨es, hl, rfl⟩; rfl
  seq := by rintro s _ ⟨es, hl, rfl⟩; rfl
  cfg := by rintro s _ ⟨es, hl, rfl⟩; rfl
  readCell := by rintro s _ ⟨es, hl, rfl⟩ c; cases c <;> rfl
  setReg := by rintro s _ ⟨es, hl, rfl⟩ r v; exact ⟨es, by rw [State.setReg_log, hl], by cases r <;> rfl⟩
  setZN := by rintro s _ ⟨es, hl, rfl⟩ v; exact ⟨es, hl, rfl⟩
  advance := by rintro s _ ⟨es, hl, rfl⟩ n; exact ⟨es, hl, rfl⟩
  halted := by rintro s _ ⟨es, hl, rfl⟩; exact ⟨es, hl, rfl⟩
  raise := by rintro s _ ⟨es, hl, rfl⟩ f; exact ⟨es, hl, rfl⟩
  logged := by
    rintro s _ ⟨es, hl, rfl⟩ e
    exact ⟨es ++ [e], by rw [State.logged_log, hl, List.append_assoc], by simp [State.logged]⟩
  writeCell := by
    rintro s _ ⟨es, hl, rfl⟩ c v
    exact ⟨es, by rw [State.writeCell_log, hl], by cases c <;> rfl⟩

/-- Settles O59, by the simulation of states whose logs have had the same events appended. -/
theorem logIsAppendOnlyAndNeverRead : Obligations.LogIsAppendOnlyAndNeverRead := by
  intro s t l h
  have hrel := step_rel (unread_sameAppended s.log l) (s := s) ⟨[], by simp, rfl⟩
  rw [h, List.append_nil] at hrel
  obtain ⟨_, ht, events, hl, rfl⟩ := hrel.exists_next
  exact ⟨events, hl, ht⟩

end Sys2Proof.Machine

/-! ## The family 20_memory.md: regions, mirrors, byte and word accesses

The address decoder's masks are said in numbers once; what a byte access does then follows from its region, and what a
word access does from its two byte accesses. -/

namespace Sys2Proof.Machine

/-! ### The masks of the decoder in numbers -/

/-- The RAM window's mask keeps the address modulo 2048 (R47). -/
theorem toNat_and_ramMask (addr : Word) : (addr &&& 0x07FF).toNat = addr.toNat % 2048 := by
  rw [BitVec.toNat_and]
  exact Nat.and_two_pow_sub_one_eq_mod _ 11

/-- In the I/O window the mask keeps bit 13, which is set there, and the address modulo 8 (R49). -/
theorem toNat_and_ioMask {addr : Word} (h1 : 0x2000 ≤ addr.toNat) (h2 : addr.toNat < 0x4000) :
    (addr &&& 0x2007).toNat = 0x2000 + addr.toNat % 8 := by
  have hbit : addr.toNat &&& 2 ^ 13 = 2 ^ 13 := by
    rw [Nat.and_two_pow, Nat.testBit_eq_decide_div_mod_eq, decide_eq_true (by omega)]
    rfl
  have hlow : addr.toNat &&& 2 ^ 3 - 1 = addr.toNat % 8 := Nat.and_two_pow_sub_one_eq_mod _ 3
  have hsum : 2 ^ 13 + addr.toNat % 8 = 2 ^ 13 ||| addr.toNat % 8 :=
    Nat.two_pow_add_eq_or_of_lt (i := 13) (by omega) 1
  calc (addr &&& 0x2007).toNat = addr.toNat &&& (2 ^ 13 ||| 2 ^ 3 - 1) := BitVec.toNat_and ..
    _ = 0x2000 + addr.toNat % 8 := by rw [Nat.and_or_distrib_left, hbit, hlow, ← hsum]; rfl

/-- Settles O32: the decoder's branches by region, with its masks in numbers. -/
theorem busDecodesEveryAddressToItsRegion : Obligations.BusDecodesEveryAddressToItsRegion := by
  intro addr
  have hbus : State.reset.cfg.memImpl = .bus := rfl
  refine ⟨fun h => ?_, fun h1 h2 => ?_, fun h1 h2 => target_unmapped hbus h1 h2, fun h => target_rom hbus h⟩
  · rw [← toNat_and_ramMask]
    exact target_ram hbus h
  · rw [← toNat_and_ioMask h1 h2, BitVec.ofNat_toNat, BitVec.setWidth_eq]
    exact target_io hbus h1 h2

/-! ### Byte accesses by region -/

/-- Settles O34: an address of the window decodes to its own cell. -/
theorem romWindowReadsAndWritesItsCells : Obligations.RomWindowReadsAndWritesItsCells := by
  intro s addr v hbus h
  have ht := target_rom hbus h
  exact ⟨memRead_cell ht, memWrite_cell ht v⟩

/-- Settles O35: an address of the range decodes to nothing. -/
theorem unmappedAccessesAreLoggedOnly : Obligations.UnmappedAccessesAreLoggedOnly := by
  intro s addr v hbus h1 h2
  have ht := target_unmapped hbus h1 h2
  exact ⟨memRead_unmapped ht, memWrite_unmapped ht v⟩

/-- Settles O36: an address of the window decodes to a register, and no device answers. -/
theorem ioWindowAccessesAreFatal : Obligations.IoWindowAccessesAreFatal := by
  intro s addr v hbus h1 h2
  have ht := target_io hbus h1 h2
  rw [memRead_io ht, memWrite_io ht, toNat_and_ioMask h1 h2]
  refine ⟨by omega, fun hn => ?_, fun hw => ?_⟩
  · rw [ioAccess_none hn, ioAccess_none hn]
    exact ⟨rfl, rfl⟩
  · rw [ioAccess_wired hw, ioAccess_wired hw]
    exact ⟨rfl, rfl⟩

/-- Settles O37: every address decodes to its own cell. -/
theorem flatMemoryIsOneCellAnAddress : Obligations.FlatMemoryIsOneCellAnAddress := by
  intro s addr v hflat
  have ht := target_flat hflat addr
  exact ⟨memRead_cell ht, memWrite_cell ht v⟩

/-! ### Reads after writes -/

/-- A write to a cell moves no address to another target. -/
@[simp] theorem State.target_writeCell (s : State) (c : CellRef) (v : Byte) (addr : Word) :
    (s.writeCell c v).target addr = s.target addr := target_congr (State.writeCell_cfg s c v) addr

/-- A log entry moves no address to another target. -/
@[simp] theorem State.target_logged (s : State) (e : LogEvent) (addr : Word) :
    (s.logged e).target addr = s.target addr := rfl

/-- A log entry changes no byte that is read. -/
@[simp] theorem State.byteAt_logged (s : State) (e : LogEvent) (addr : Word) :
    (s.logged e).byteAt addr = s.byteAt addr :=
  byteAt_congr (s := s) (t := s.logged e) rfl rfl rfl rfl addr

/-- A read through any address of the cell just written gives the byte written. -/
theorem memRead_writeCell_same {s : State} (hi : s.memoryInv) {addr : Word} {c : CellRef}
    (hc : s.target addr = .cell c) (v : Byte) : memRead addr (s.writeCell c v) = .ok v (s.writeCell c v) := by
  rw [memRead_cell ((s.target_writeCell c v addr).trans hc), readCell_writeCell_same hi]

/-- A read through an address of another cell gives what that cell held. -/
theorem memRead_writeCell_other {s : State} {addr : Word} {c d : CellRef} (hd : s.target addr = .cell d) (h : d ≠ c)
    (v : Byte) : memRead addr (s.writeCell c v) = .ok (s.readCell d) (s.writeCell c v) := by
  rw [memRead_cell ((s.target_writeCell c v addr).trans hd), readCell_writeCell_other s v h]

/-- Settles O33: both addresses decode to the RAM cell that their low 11 bits name. -/
theorem mirrorAddressesShareOneCell : Obligations.MirrorAddressesShareOneCell := by
  intro s a1 a2 hi hbus h1 h2 hmask
  have ht1 := target_ram hbus h1
  have ht2 := target_ram hbus h2
  rw [← hmask] at ht2
  exact ⟨(byteAt_cell ht1).trans (byteAt_cell ht2).symm,
    fun v => ⟨_, memWrite_cell ht1 v, memRead_writeCell_same hi ht2 v⟩⟩

/-- Settles O38: a write changes the cell of its address, or only the log where there is none. -/
theorem readsReturnTheMostRecentWrite : Obligations.ReadsReturnTheMostRecentWrite := by
  intro s t addr v hi hw
  rcases memWrite_ok hw with ⟨c, hc, rfl⟩ | ⟨hu, rfl⟩
  · exact ⟨fun _ => memRead_writeCell_same hi hc v, fun other ho => byteAt_writeCell_other hc ho v⟩
  · refine ⟨?_, fun other _ => State.byteAt_logged s _ other⟩
    rintro ⟨c, hc⟩
    rw [hu] at hc
    cases hc

/-! ### Word accesses -/

/-- A word read whose byte reads complete gives their bytes, the first one low (R42, R45). -/
theorem readWord_of_memRead {s s1 s2 : State} {addr : Word} {lo hi : Byte} (h1 : memRead addr s = .ok lo s1)
    (h2 : memRead (addr + 1) s1 = .ok hi s2) : readWord addr s = .ok (assemble hi lo) s2 := by
  rw [readWord, h1, Res.bind_ok, h2, Res.bind_ok]

/-- A word write whose first byte write completes ends as its second byte write does (R43, R45, R56). -/
theorem writeWord_of_memWrite {s s1 : State} {addr w : Word} (h : memWrite addr (lowByte w) s = .ok () s1) :
    writeWord addr w s = memWrite (addr + 1) (highByte w) s1 := by
  rw [writeWord, h, Res.bind_ok]

theorem lowByte_eq_mod (w : Word) : lowByte w = BitVec.ofNat 8 (w.toNat % 256) := by
  apply BitVec.eq_of_toNat_eq
  simp [lowByte]

theorem highByte_eq_div (w : Word) : highByte w = BitVec.ofNat 8 (w.toNat / 256) := by
  apply BitVec.eq_of_toNat_eq
  simp [highByte, Nat.shiftRight_eq_div_pow]

/-- Settles O39: the helpers' definitions, with the halves of a word in numbers. -/
theorem wordHelpersAreTwoByteAccesses : Obligations.WordHelpersAreTwoByteAccesses := by
  refine ⟨fun s s1 s2 addr lo hi h1 h2 => ⟨_, readWord_of_memRead h1 h2, toNat_assemble hi lo⟩, ?_⟩
  intro s s1 s2 addr w h1 h2
  rw [← lowByte_eq_mod] at h1
  rw [writeWord_of_memWrite h1, highByte_eq_div, h2]

/-- The cell an address decodes to, in numbers. -/
theorem target_cell_index {s : State} {addr : Word} {c : CellRef} (h : s.target addr = .cell c) :
    c = .ram (addr.toNat % 2048) ∨ (0x8000 ≤ addr.toNat ∧ c = .rom (addr.toNat - 0x8000)) ∨ c = .flat addr.toNat := by
  cases hm : s.cfg.memImpl with
  | flat =>
    rw [target_flat hm] at h
    cases h
    exact .inr (.inr rfl)
  | bus =>
    obtain ⟨hram, hio, hun, hrom⟩ := busDecodesEveryAddressToItsRegion addr
    rw [State.target, hm] at h
    have hregion : addr.toNat < 0x2000 ∨ (0x2000 ≤ addr.toNat ∧ addr.toNat < 0x4000) ∨
        (0x4000 ≤ addr.toNat ∧ addr.toNat < 0x8000) ∨ 0x8000 ≤ addr.toNat := by omega
    rcases hregion with h1 | ⟨h1, h2⟩ | ⟨h1, h2⟩ | h1
    · cases (hram h1).symm.trans h
      exact .inl rfl
    · cases (hio h1 h2).symm.trans h
    · cases (hun h1 h2).symm.trans h
    · cases (hrom h1).symm.trans h
      exact .inr (.inl ⟨h1, rfl⟩)

/-- Addresses that share a cell agree modulo 2048, under either memory. -/
theorem mod_eq_of_sameCell {s : State} {addr other : Word} (h : s.sameCell addr other) :
    addr.toNat % 2048 = other.toNat % 2048 := by
  obtain ⟨c, h1, h2⟩ := h
  rcases target_cell_index h1 with rfl | ⟨hl, rfl⟩ | rfl
  · simpa using target_cell_index h2
  · have := target_cell_index h2
    simp only [reduceCtorEq, CellRef.rom.injEq, false_or, or_false] at this
    omega
  · have := target_cell_index h2
    simp only [reduceCtorEq, CellRef.flat.injEq, and_false, false_or] at this
    omega

/-- The two bytes of a word never share a cell. -/
theorem not_sameCell_succ (s : State) (addr : Word) : ¬ s.sameCell addr (addr + 1) := by
  intro h
  have hmod := mod_eq_of_sameCell h
  have hsucc : (addr + 1).toNat = (addr.toNat + 1) % 65536 := BitVec.toNat_add addr 1
  omega

/-- A word written to two cells is read back (R66). -/
theorem readWord_writeWord_backed {s : State} (hi : s.memoryInv) {addr : Word} (h1 : s.backed addr)
    (h2 : s.backed (addr + 1)) (w : Word) : ∃ t, writeWord addr w s = .ok () t ∧ readWord addr t = .ok w t := by
  obtain ⟨c, hc⟩ := h1
  obtain ⟨d, hd⟩ := h2
  have hne : c ≠ d := fun e => not_sameCell_succ s addr ⟨c, hc, e ▸ hd⟩
  have hc1 := (s.target_writeCell c (lowByte w) addr).trans hc
  have hd1 := (s.target_writeCell c (lowByte w) (addr + 1)).trans hd
  refine ⟨_, (writeWord_of_memWrite (memWrite_cell hc _)).trans (memWrite_cell hd1 _), ?_⟩
  have hlo := memRead_writeCell_other hc1 hne (highByte w)
  rw [readCell_writeCell_same hi] at hlo
  have hhi := memRead_writeCell_same (memoryInv_writeCell hi hc (lowByte w)) hd1 (highByte w)
  rw [readWord_of_memRead hlo hhi, assemble_halves]

/-- A word written to the unmapped range is discarded, and 0x0000 is read there (R52, R53, R66). -/
theorem readWord_writeWord_unmapped {s : State} {addr : Word} (h1 : s.target addr = .unmapped)
    (h2 : s.target (addr + 1) = .unmapped) (w : Word) :
    ∃ t, writeWord addr w s = .ok () t ∧ (readWord addr t).value = some 0x0000 := by
  refine ⟨_, (writeWord_of_memWrite (memWrite_unmapped h1 _)).trans (memWrite_unmapped (by simpa using h2) _), ?_⟩
  rw [readWord_of_memRead (memRead_unmapped (by simpa using h1)) (memRead_unmapped (by simpa using h2)), Res.value_ok]
  decide

/-- Settles O40, by the two cases of the two bytes' regions. -/
theorem wordRoundTripInBackedRegions : Obligations.WordRoundTripInBackedRegions :=
  fun _ _ w hi =>
    ⟨fun h1 h2 => readWord_writeWord_backed hi h1 h2 w, fun h1 h2 => readWord_writeWord_unmapped h1 h2 w⟩

/-- Settles O41: the second byte write raises the fatal condition in the state that the first one left. -/
theorem wordWriteCutByIoWindowKeepsItsFirstByte : Obligations.WordWriteCutByIoWindowKeepsItsFirstByte := by
  intro s addr w m c hc hm hn
  rw [writeWord_of_memWrite (memWrite_cell hc _), memWrite_io ((s.target_writeCell c _ _).trans hm),
    ioAccess_none (by simpa using hn)]
  rfl

end Sys2Proof.Machine

/-! ## The family 30_encoding.md: decoder and encoder, dispatch tables, decoded execution

The decoder gives an instruction exactly for an opcode byte with an entry, followed by the operand bytes from which the
entry's form makes it. Both directions of the round trip are read off that. -/

namespace Sys2Proof

/-! ### Dispatch tables -/

/-- A table has an entry exactly for the opcode bytes of its rows. -/
theorem Table.isSome_find_iff {t : Table} {op : Byte} : (Table.find t op).isSome = true ↔ op ∈ t.map (·.1) := by
  induction t with
  | nil => simp [Table.find]
  | cons r t ih =>
    obtain ⟨k, e⟩ := r
    rw [Table.find, List.map_cons, List.mem_cons, ← ih]
    by_cases hk : k = op
    · simp [hk]
    · simp [hk, Ne.symm hk]

/-- Where no two rows have the same entry, an entry determines its opcode byte. -/
theorem Table.find_injective {t : Table} (h : (t.map (·.2)).Nodup) {op op' : Byte} {e : Entry}
    (h1 : Table.find t op = some e) (h2 : Table.find t op' = some e) : op = op' :=
  congrArg Prod.fst
    (List.inj_on_of_nodup_map h (Machine.mem_of_table_find h1) (Machine.mem_of_table_find h2) rfl)

/-- The byte values that have an entry are those of the rows. -/
theorem Table.perm_present {t : Table} (h : (t.map (·.1)).Nodup) :
    ((List.range 256).filter fun n => (Table.find t (BitVec.ofNat 8 n)).isSome).Perm
      ((t.map (·.1)).map BitVec.toNat) := by
  have hnodup : ((t.map (·.1)).map BitVec.toNat).Nodup := h.map fun _ _ => BitVec.eq_of_toNat_eq
  refine (List.perm_ext_iff_of_nodup (List.nodup_range.filter _) hnodup).2 fun n => ?_
  rw [List.mem_filter, List.mem_range, Table.isSome_find_iff, List.mem_map (f := BitVec.toNat)]
  constructor
  · rintro ⟨hn, hmem⟩
    exact ⟨_, hmem, (BitVec.toNat_ofNat ..).trans (Nat.mod_eq_of_lt hn)⟩
  · rintro ⟨op, hmem, rfl⟩
    exact ⟨op.isLt, by rwa [BitVec.ofNat_toNat, BitVec.setWidth_eq]⟩

/-- A table with one row a byte leaves every other byte value without an entry (R87). -/
theorem Table.length_absent {t : Table} (h : (t.map (·.1)).Nodup) :
    ((List.range 256).filter fun n => (Table.find t (BitVec.ofNat 8 n)).isNone).length = 256 - t.length := by
  have hsum := List.length_eq_length_filter_add (l := List.range 256)
    fun n => (Table.find t (BitVec.ofNat 8 n)).isSome
  rw [(Table.perm_present h).length_eq, List.length_map, List.length_map, List.length_range] at hsum
  simp only [Option.not_isSome] at hsum
  omega

/-- R82, part by part: the entries are well formed, no byte has two rows, and the rows of `DT_BASE` are present. -/
theorem Table.wf_iff {t : Table} : Table.wf t = true ↔
    (∀ r ∈ t, r.2.wf = true) ∧ (t.map (·.1)).Nodup ∧ ∀ r ∈ dtBase, Table.find t r.1 = some r.2 := by
  simp only [Table.wf, Bool.and_eq_true, List.all_eq_true, beq_iff_eq, decide_eq_true_eq]

theorem Table.nodup_of_wf {t : Table} (hw : Table.wf t = true) : (t.map (·.1)).Nodup := by
  obtain ⟨-, hnodup, -⟩ := Table.wf_iff.1 hw
  exact hnodup

/-- A well-formed table has the entries of `DT_BASE` (R82 (e)). -/
theorem TableChoice.find_of_find_base {t : TableChoice} (hw : Table.wf t.rows = true) {op : Byte} {e : Entry}
    (h : TableChoice.base.find op = some e) : t.find op = some e := by
  obtain ⟨-, -, hbase⟩ := Table.wf_iff.1 hw
  exact hbase _ (Machine.mem_of_table_find h)

theorem dtBase_wf : Table.wf dtBase = true := by decide

theorem dtExt_wf : Table.wf dtExt = true := by decide

/-- Settles O5: the two tables are evaluated, and R82 (e) for `DT_EXT` is the agreement. -/
theorem namedDispatchTablesAreWellFormed : Obligations.NamedDispatchTablesAreWellFormed :=
  ⟨dtBase_wf, dtExt_wf, rfl, rfl, fun _ _ => TableChoice.find_of_find_base (t := .ext) dtExt_wf⟩

/-! ### The decoder -/

/-- The form makes the instruction from these operand bytes, the low byte of a word first (R80, R83). -/
inductive Shape.Makes : Shape → List Byte → Instr → Prop
  | f1 (i : Instr) : Makes (.f1 i) [] i
  | f2 (mk : Byte → Instr) (d8 : Byte) : Makes (.f2 mk) [d8] (mk d8)
  | f3 (mk : Word → Instr) (lo hi : Byte) : Makes (.f3 mk) [lo, hi] (mk (assemble hi lo))

section

variable {t : TableChoice} {op : Byte} {e : Entry}

theorem decodeWith_of_find_none (h : t.find op = none) (bytes : List Byte) :
    decodeWith t (op :: bytes) = .reject (.unimplementedOpcode op) := by
  rw [decodeWith, h]

/-- An opcode byte with an entry and the operand bytes of its form decode to the instruction made from them. -/
theorem decodeWith_of_makes (hf : t.find op = some e) {sh : Shape} (hs : e.shape = some sh) {operands : List Byte}
    {i : Instr} (hm : sh.Makes operands i) (rest : List Byte) :
    decodeWith t (op :: (operands ++ rest)) = .instr i rest := by
  rw [decodeWith, hf]
  cases hm <;> simp only [hs] <;> rfl

/-- All the decoder can answer for an opcode byte with an entry: an instruction made from the operand bytes that its form
takes, or one of two rejections. -/
theorem decodeWith_of_find (hf : t.find op = some e) (bytes : List Byte) :
    (∃ sh operands i rest, e.shape = some sh ∧ sh.Makes operands i ∧ bytes = operands ++ rest ∧
        decodeWith t (op :: bytes) = .instr i rest) ∨
      decodeWith t (op :: bytes) = .reject (.noTableRow op) ∨
      decodeWith t (op :: bytes) = .reject (.operandMissing op) := by
  cases hs : e.shape with
  | none => exact .inr (.inl (by simp only [decodeWith, hf, hs]))
  | some sh =>
    cases sh with
    | f1 i => exact .inl ⟨_, [], i, bytes, rfl, .f1 i, rfl, decodeWith_of_makes hf hs (.f1 i) bytes⟩
    | f2 mk =>
      match bytes with
      | d8 :: rest =>
        exact .inl ⟨_, [d8], _, rest, rfl, .f2 mk d8, rfl, decodeWith_of_makes hf hs (.f2 mk d8) rest⟩
      | [] => exact .inr (.inr (by simp only [decodeWith, hf, hs]))
    | f3 mk =>
      match bytes with
      | lo :: hi :: rest =>
        exact .inl ⟨_, [lo, hi], _, rest, rfl, .f3 mk lo hi, rfl, decodeWith_of_makes hf hs (.f3 mk lo hi) rest⟩
      | [_] | [] => exact .inr (.inr (by simp only [decodeWith, hf, hs]))

/-- The decoder calls an opcode byte unimplemented exactly when the table has no entry for it (R87, R197). -/
theorem decodeWith_unimplemented_iff (bytes : List Byte) :
    decodeWith t (op :: bytes) = .reject (.unimplementedOpcode op) ↔ t.find op = none := by
  refine ⟨fun h => ?_, fun h => decodeWith_of_find_none h bytes⟩
  cases hf : t.find op with
  | none => rfl
  | some e =>
    rcases decodeWith_of_find hf bytes with ⟨_, _, _, _, -, -, -, hd⟩ | hd | hd <;> simp [hd] at h

end

/-- Bytes that decode to an instruction are an opcode byte with an entry, the operand bytes from which the entry's form
makes the instruction, and the rest (R81, R83). -/
theorem exists_of_decodeWith_eq_instr {t : TableChoice} {bytes rest : List Byte} {i : Instr}
    (h : decodeWith t bytes = .instr i rest) :
    ∃ op e sh operands, t.find op = some e ∧ e.shape = some sh ∧ sh.Makes operands i ∧
      bytes = op :: (operands ++ rest) := by
  cases bytes with
  | nil => simp [decodeWith] at h
  | cons op bytes =>
    cases hf : t.find op with
    | none => simp [decodeWith_of_find_none hf] at h
    | some e =>
      rcases decodeWith_of_find hf bytes with ⟨sh, operands, i', rest', hs, hm, rfl, hd⟩ | hd | hd
      · rw [hd] at h
        cases h
        exact ⟨op, e, sh, operands, hf, hs, hm, rfl⟩
      · simp [hd] at h
      · simp [hd] at h

/-- Settles O3, by what the decoder answers with and without an entry, and by counting the rows of either table. -/
theorem decoderRejectsExactlyTheAbsentOpcodes : Obligations.DecoderRejectsExactlyTheAbsentOpcodes :=
  ⟨fun _ rest => decodeWith_unimplemented_iff rest, Table.length_absent (Table.nodup_of_wf dtExt_wf),
    Table.length_absent (Table.nodup_of_wf dtBase_wf)⟩

/-! ### The encoder -/

/-- `DT_EXT` gives every instruction's opcode byte the entry that the instruction is the row of (R85). -/
theorem find_opcode (i : Instr) : TableChoice.ext.find i.opcode = some i.entry := by
  cases i <;> rfl

/-- The halves of a word operand make the instruction with that word. -/
theorem Shape.Makes.word (mk : Word → Instr) (a16 : Word) :
    Makes (.f3 mk) [lowByte a16, highByte a16] (mk a16) := by
  have h := Makes.f3 mk (lowByte a16) (highByte a16)
  rwa [Machine.assemble_halves] at h

/-- The form of an instruction's entry makes the instruction from its operand bytes. -/
theorem makes_operandBytes (i : Instr) : ∃ sh, i.entry.shape = some sh ∧ sh.Makes i.operandBytes i := by
  cases i with
  | tax | tay | txa | tya | inx | iny | brk => exact ⟨_, rfl, .f1 _⟩
  | ldaAbs a16 | ldaAbsX a16 | ldaAbsY a16 | ldxAbs a16 | ldxAbsY a16 | ldyAbs a16 | ldyAbsX a16 | staAbs a16
  | staAbsX a16 | staAbsY a16 | stxAbs a16 | styAbs a16 | incAbs a16 | incAbsX a16 => exact ⟨_, rfl, .word _ a16⟩
  | _ d8 => exact ⟨_, rfl, .f2 _ d8⟩

/-- The halves of an assembled word are its bytes (R44). -/
@[simp] theorem lowByte_assemble (hi lo : Byte) : lowByte (assemble hi lo) = lo := by
  rw [Machine.lowByte_eq_mod, Machine.toNat_assemble]
  bv_omega

@[simp] theorem highByte_assemble (hi lo : Byte) : highByte (assemble hi lo) = hi := by
  rw [Machine.highByte_eq_div, Machine.toNat_assemble]
  bv_omega

/-- What an entry's form makes from operand bytes is an instruction of that entry with those operand bytes. -/
theorem entry_operandBytes_of_makes {e : Entry} {sh : Shape} {operands : List Byte} {i : Instr}
    (hs : e.shape = some sh) (hm : sh.Makes operands i) : i.entry = e ∧ i.operandBytes = operands := by
  obtain ⟨o, m, w⟩ := e
  simp only [Entry.shape] at hs
  split at hs
  case isFalse => cases hs
  case isTrue hw =>
    subst hw
    revert hs
    fun_cases shapeOf o m <;> intro hs <;> cases hs <;> cases hm <;>
      simp [Instr.entry, Instr.operandBytes, Mode.width]

/-- `DT_EXT` has no two rows with the same entry: every instruction has one spelling (R91). -/
theorem dtExt_entries_nodup : (dtExt.map (·.2)).Nodup := by decide

/-- Settles O1: the opcode byte has the instruction's entry, whose form makes the instruction from its operand bytes. -/
theorem decodingAnEncodedInstructionGivesItBack : Obligations.DecodingAnEncodedInstructionGivesItBack := by
  intro i rest
  obtain ⟨sh, hs, hm⟩ := makes_operandBytes i
  exact decodeWith_of_makes (find_opcode i) hs hm rest

/-- Settles O2: the entry found is the decoded instruction's, and only that instruction's opcode byte has it. -/
theorem decodedBytesAreTheInstructionsEncoding : Obligations.DecodedBytesAreTheInstructionsEncoding := by
  intro bytes i rest h
  obtain ⟨op, e, sh, operands, hf, hs, hm, rfl⟩ := exists_of_decodeWith_eq_instr h
  obtain ⟨rfl, rfl⟩ := entry_operandBytes_of_makes hs hm
  obtain rfl := Table.find_injective dtExt_entries_nodup hf (find_opcode i)
  rfl

/-- Settles O4: each of the words is the encoding of its instruction (R90), which decodes to it. -/
theorem wordsOfTheSpecDecodeToTheirInstructions : Obligations.WordsOfTheSpecDecodeToTheirInstructions := by
  have h (i : Instr) := decodingAnEncodedInstructionGivesItBack i []
  exact ⟨h .tax, h (.ldaImm 0x05), h (.ldaZp 0x10), h (.ldaZpX 0x10), h (.ldxZpY 0x10), h (.ldaAbs 0x1234),
    h (.ldaAbsX 0x1234), h (.ldaAbsY 0x1234), h (.ldaIndX 0x10), h (.ldaIndY 0x10), h (.staZp 0x10),
    h (.stxZpY 0x20), h .iny, h (.incAbsX 0x17FF), h .brk⟩

end Sys2Proof

namespace Sys2Proof.Machine

/-! ### Decoded execution and configuration -/

/-- Settles O10: an entry with a form executes as its instruction, which is the pseudocode; a well-formed one without
executes by the pseudocode itself. -/
theorem decodedExecutionIsThePseudocode : Obligations.DecodedExecutionIsThePseudocode := by
  intro op e s hw
  cases hs : e.shape with
  | some sh => exact runEntry_of_shape hs op s
  | none => simp only [runEntry, hs, hw, Bool.true_or, if_true]

/-- Settles O58: neither a fatal condition nor a completed operation changes a parameter. -/
theorem stepsNeverChangeTheConfiguration : Obligations.StepsNeverChangeTheConfiguration := by
  intro s t h
  obtain ⟨-, ⟨f, pc, l, -, rfl⟩ | ⟨op, e, l, -, -, -, hc⟩⟩ := step_fatal_or_completed h
  · rfl
  · exact hc.cfg

/-- Settles O48: each of the five ways breaks one part of what `create` asks for. -/
theorem unacceptedConfigurationsAreRefused : Obligations.UnacceptedConfigurationsAreRefused := by
  intro c h
  rw [create, if_neg]
  rintro ⟨ht, hd, hram, hrom, hflat⟩
  rcases h with h | h | h | h | h
  · exact absurd (ht.symm.trans h) (by decide)
  · exact absurd (hd.symm.trans h) (by decide)
  · exact h hram
  · exact h hrom
  · exact h hflat

end Sys2Proof.Machine

/-! ## The family 40_addressing_modes.md: the resolver, its addresses in numbers, and where it stops

The resolver's reads are said once (O43). The addresses of the modes are then those of `effAddr`, in numbers, and an
operation ends as its operand read does. -/

namespace Sys2Proof.Machine

/-! ### The operand reads -/

/-- A word read ends as the read of its first byte does. -/
theorem readWord_of_memRead_stop {s : State} {addr : Word} {o : Outcome} (h : memRead addr s = .stop o) :
    readWord addr s = .stop o := by
  rw [readWord, h, Res.bind_stop]

/-- A word read whose first byte read completes ends as the read of its second byte does. -/
theorem readWord_of_memRead_succ_stop {s s1 : State} {addr : Word} {lo : Byte} {o : Outcome}
    (h1 : memRead addr s = .ok lo s1) (h2 : memRead (addr + 1) s1 = .stop o) : readWord addr s = .stop o := by
  rw [readWord, h1, Res.bind_ok, h2, Res.bind_stop]

/-- A mode with two operand bytes whose second read ends the step ends as that read does. -/
theorem resolve_stop_of_memRead_succ {op : Byte} {m : Mode} {s s1 : State} {lo : Byte} {o : Outcome}
    (hw : m.width = 2) (h1 : memRead s.pc s = .ok lo s1) (h2 : memRead (s.pc + 1) s1 = .stop o) :
    resolve op m s = .stop o := by
  have hword := readWord_of_memRead_succ_stop h1 h2
  cases m with
  | absolute | absoluteX | absoluteY => simp only [resolve, hword, Res.bind_stop]
  | _ => simp [Mode.width] at hw

/-- A mode that reads an operand byte ends as the read of the first one does, where that ends the step. -/
theorem resolve_stop_of_memRead {op : Byte} {m : Mode} {s : State} {o : Outcome} (hi : m ≠ .immediate)
    (hn : m ≠ .noneAddressing) (h : memRead s.pc s = .stop o) : resolve op m s = .stop o := by
  cases m with
  | immediate => exact absurd rfl hi
  | noneAddressing => exact absurd rfl hn
  | absolute | absoluteX | absoluteY => simp only [resolve, readWord_of_memRead_stop h, Res.bind_stop]
  | _ => simp only [resolve, h, Res.bind_stop]

/-- Settles O43: each mode reads one byte or a word at `PC`, and goes on with `effAddr` or ends as the read does. -/
theorem resolverTakesOperandBytesAtPc : Obligations.ResolverTakesOperandBytesAtPc := by
  intro op s
  refine ⟨rfl, fun lo s1 hlo => ⟨?_, fun hi s2 hhi => ?_, fun m o hw => resolve_stop_of_memRead_succ hw hlo⟩,
    fun m o => resolve_stop_of_memRead⟩
  · simp only [resolve, hlo, Res.bind_ok, and_self]
  · simp only [resolve, readWord_of_memRead hlo hhi, Res.bind_ok, and_self]

/-- Settles O42: the inversion of a completed resolver. -/
theorem resolverIsPureUpToTheLog : Obligations.ResolverIsPureUpToTheLog := fun _ _ _ _ _ => resolve_ok

/-! ### The addresses in numbers -/

@[simp] theorem toNat_zext16 (b : Byte) : (zext16 b).toNat = b.toNat := by
  rw [zext16, BitVec.toNat_setWidth, Nat.mod_eq_of_lt (by omega)]

theorem zext16_eq_ofNat (b : Byte) : zext16 b = BitVec.ofNat 16 b.toNat := by
  rw [← toNat_zext16, BitVec.ofNat_toNat, BitVec.setWidth_eq]

/-- The zero-page location after another one, in numbers: it wraps within page 0. -/
theorem zext16_succ_eq_ofNat (b : Byte) : zext16 (b + 1) = BitVec.ofNat 16 ((b.toNat + 1) % 256) := by
  rw [zext16_eq_ofNat, BitVec.toNat_add]
  rfl

/-- A byte read leaves the index registers, and what every address reads as. -/
theorem memRead_frame {s t : State} {addr : Word} {v : Byte} (h : memRead addr s = .ok v t) :
    t.x = s.x ∧ t.y = s.y ∧ ∀ other, t.byteAt other = s.byteAt other := by
  obtain ⟨hs, -⟩ := memRead_sameButLog h
  rw [hs]
  exact ⟨rfl, rfl, byteAt_congr rfl rfl rfl rfl⟩

/-- Settles O44: the index is added to the operand byte, as a byte, and the sum is then extended with zeros. -/
theorem zeroPageAddressesStayInPageZero : Obligations.ZeroPageAddressesStayInPageZero := by
  intro op d8 s s1 h
  obtain ⟨-, hbyte, -⟩ := resolverTakesOperandBytesAtPc op s
  obtain ⟨⟨h0, hX, hY, -, -⟩, -, -⟩ := hbyte d8 s1 h
  obtain ⟨hx, hy, -⟩ := memRead_frame h
  rw [h0, hX, hY, ← hx, ← hy]
  refine ⟨_, _, _, ⟨rfl, toNat_zext16 d8⟩, ⟨rfl, ?_⟩, ⟨rfl, ?_⟩, ?_⟩
  · rw [toNat_zext16, BitVec.toNat_add]
  · rw [toNat_zext16, BitVec.toNat_add]
  · simp only [toNat_zext16]
    omega

/-- Settles O45: the index, extended with zeros, is added to the operand word as a word. -/
theorem absoluteAddressesAddTheIndexModulo65536 : Obligations.AbsoluteAddressesAddTheIndexModulo65536 := by
  intro op lo hi s s1 s2 h1 h2
  obtain ⟨-, hbyte, -⟩ := resolverTakesOperandBytesAtPc op s
  obtain ⟨-, hword, -⟩ := hbyte lo s1 h1
  obtain ⟨hA, hX, hY⟩ := hword hi s2 h2
  obtain ⟨hx1, hy1, -⟩ := memRead_frame h1
  obtain ⟨hx2, hy2, -⟩ := memRead_frame h2
  rw [hA, hX, hY, ← hx1, ← hy1, ← hx2, ← hy2]
  refine ⟨_, _, _, ⟨rfl, toNat_assemble hi lo⟩, ⟨rfl, ?_⟩, ⟨rfl, ?_⟩⟩
  · rw [BitVec.toNat_add, toNat_assemble, toNat_zext16]
  · rw [BitVec.toNat_add, toNat_assemble, toNat_zext16]

/-- Settles O46: the pointer is that of `readPointer_ok`, whose two locations are said in numbers, and the operand read
has changed neither the index registers nor what they hold. -/
theorem indirectAddressesReadAPointerInPageZero : Obligations.IndirectAddressesReadAPointerInPageZero := by
  intro op d8 s s1 h
  obtain ⟨-, hbyte, -⟩ := resolverTakesOperandBytesAtPc op s
  obtain ⟨⟨-, -, -, hX, hY⟩, -, -⟩ := hbyte d8 s1 h
  obtain ⟨hx, hy, hb⟩ := memRead_frame h
  obtain ⟨lox, hix, hlox, hhix, hpx⟩ := readPointer_ok (d8 + s1.x) s1
  obtain ⟨loy, hiy, hloy, hhiy, hpy⟩ := readPointer_ok d8 s1
  rw [hb, zext16_eq_ofNat, BitVec.toNat_add, hx] at hlox
  rw [hb, zext16_succ_eq_ofNat, BitVec.toNat_add, hx, Nat.mod_add_mod] at hhix
  rw [hb, zext16_eq_ofNat] at hloy
  rw [hb, zext16_succ_eq_ofNat] at hhiy
  refine ⟨lox, hix, loy, hiy, assemble hix lox, assemble hiy loy + zext16 s1.y,
    ⟨hlox, hhix, hX.trans hpx, toNat_assemble hix lox⟩, ⟨hloy, hhiy, ?_, ?_⟩⟩
  · rw [hY, effAddr, hpy, Res.bind_ok]
  · rw [BitVec.toNat_add, toNat_assemble, toNat_zext16, hy]

end Sys2Proof.Machine

namespace Sys2Proof

/-! ### Entries with and without an address -/

/-- R82 for one entry, part by part. -/
theorem Entry.wf_iff {e : Entry} :
    e.wf = true ↔ e.width = e.mode.width ∧ e.op.known = true ∧ e.op.allows e.mode = true := by
  simp only [Entry.wf, Bool.and_eq_true, beq_iff_eq]

/-- An operation takes an address exactly in the modes that give one (R82 (c), (d)). -/
theorem Operation.takesAddress_iff_of_allows {o : Operation} {m : Mode} (h : o.allows m = true) :
    o.takesAddress = true ↔ m ≠ .noneAddressing := by
  cases o <;> simp_all [Operation.allows, Operation.takesAddress]

/-- Only loads may be paired with mode Immediate (R82 (c)). -/
theorem Operation.exists_eq_ld_of_allows {o : Operation} (h : o.allows .immediate = true) : ∃ r, o = .ld r := by
  cases o with
  | ld r => exact ⟨r, rfl⟩
  | _ => cases h

theorem Entry.addressMissing_iff {e : Entry} :
    e.addressMissing = true ↔ e.op.takesAddress = true ∧ e.mode = .noneAddressing := by
  simp only [Entry.addressMissing, Bool.and_eq_true, beq_iff_eq]

end Sys2Proof

namespace Sys2Proof.Machine

/-- An operation that needs an address ends as its resolver does, where that ends the step. -/
theorem runOperation_of_resolve_stop {op : Byte} {e : Entry} {s : State} {o : Outcome}
    (ht : e.op.takesAddress = true) (h : resolve op e.mode s = .stop o) : runOperation op e s = o := by
  rw [runOperation]
  cases hop : e.op with
  | ld r => simp only [h, load, Res.finish_stop]
  | st r => simp only [h, store, Res.finish_stop]
  | incm => simp only [h, incMem, Res.finish_stop]
  | _ => simp [hop, Operation.takesAddress] at ht

/-- An entry with the construction bug of R222 is not refused: the pseudocode of its operation runs. -/
theorem runEntry_of_addressMissing {e : Entry} (h : e.addressMissing = true) (op : Byte) (s : State) :
    runEntry op e s = runOperation op e s := by
  cases hs : e.shape with
  | some sh => exact runEntry_of_shape hs op s
  | none => simp only [runEntry, hs, h, Bool.or_true, if_true]

/-- Settles O11: the resolver is fatal at once, and a well-formed table has no such entry. -/
theorem resolvingNoneAddressingIsFatal : Obligations.ResolvingNoneAddressingIsFatal := by
  refine ⟨fun op e s ht hm => ?_, fun op e hf => ?_⟩
  · rw [runEntry_of_addressMissing (Entry.addressMissing_iff.2 ⟨ht, hm⟩)]
    exact runOperation_of_resolve_stop ht (by rw [hm]; rfl)
  · have hext : TableChoice.ext.find op = some e := hf.elim id (TableChoice.find_of_find_base (t := .ext) dtExt_wf)
    obtain ⟨-, -, hallows⟩ := Entry.wf_iff.1 (entry_wf_of_find (t := .ext) dtExt_wf hext)
    rintro ⟨ht, hm⟩
    exact (Operation.takesAddress_iff_of_allows hallows).1 ht hm

/-! ### Operand bytes in the I/O window -/

/-- A step whose fetch completes, on a byte with a well-formed entry, is the pseudocode of that entry (R196 to R198). -/
theorem step_of_memRead {s s1 : State} {op : Byte} {e : Entry} (hr : s.seq = .running)
    (h : memRead s.pc s = .ok op s1) (hf : s.cfg.dt.find op = some e) (hw : e.wf = true) :
    step s = runOperation op e (s1.advance 1) := by
  have hc : s1.cfg = s.cfg := by rw [(memRead_sameButLog h).1]
  rw [step_running hr, runInstruction, fetchOpcode, h, Res.bind_ok, Res.finish_ok]
  simp only [decodeAndRun, State.advance_cfg, hc, hf]
  exact decodedExecutionIsThePseudocode op e _ hw

/-- A well-formed entry with operand bytes ends as the read of the first one does: that read is the resolver's, or in mode
Immediate the load's. -/
theorem runOperation_of_memRead_stop {op : Byte} {e : Entry} {s : State} {o : Outcome} (hw : e.wf = true)
    (h1 : 1 ≤ e.width) (h : memRead s.pc s = .stop o) : runOperation op e s = o := by
  obtain ⟨hwidth, -, hallows⟩ := Entry.wf_iff.1 hw
  have hn : e.mode ≠ .noneAddressing := fun hm => by simp [hwidth, hm, Mode.width] at h1
  by_cases hi : e.mode = .immediate
  · rw [hi] at hallows
    obtain ⟨r, hop⟩ := Operation.exists_eq_ld_of_allows hallows
    simp only [runOperation, hop, hi, resolve, load, Res.finish_ok, h, Res.finish_stop]
  · exact runOperation_of_resolve_stop ((Operation.takesAddress_iff_of_allows hallows).2 hn)
      (resolve_stop_of_memRead hi hn h)

/-- A well-formed entry with two operand bytes ends as the read of the second one does. -/
theorem runOperation_of_memRead_succ_stop {op : Byte} {e : Entry} {s s1 : State} {lo : Byte} {o : Outcome}
    (hw : e.wf = true) (h2 : e.width = 2) (hlo : memRead s.pc s = .ok lo s1)
    (hhi : memRead (s.pc + 1) s1 = .stop o) : runOperation op e s = o := by
  obtain ⟨hwidth, -, hallows⟩ := Entry.wf_iff.1 hw
  have hm : e.mode.width = 2 := hwidth.symm.trans h2
  have hn : e.mode ≠ .noneAddressing := fun he => by simp [he, Mode.width] at hm
  exact runOperation_of_resolve_stop ((Operation.takesAddress_iff_of_allows hallows).2 hn)
    (resolve_stop_of_memRead_succ hm hlo hhi)

/-- A read of the first address of the I/O window is fatal with no device wired (R49). -/
theorem memRead_ioBase {s : State} (hb : s.cfg.memImpl = .bus) (hn : s.cfg.ioDevice = .none) {addr : Word}
    (ha : addr = 0x2000) : memRead addr s = .stop (.next (s.raise (.unimplementedDevice .read 0x2000 0x2000))) := by
  subst ha
  rw [memRead_io (target_io hb (by decide) (by decide)), ioAccess_none hn]
  rfl

/-- A read in the RAM window gives a byte and leaves the state (R47). -/
theorem memRead_ram {s : State} (hb : s.cfg.memImpl = .bus) {addr : Word} (h : addr.toNat < 0x2000) :
    ∃ v, s.byteAt addr = some v ∧ memRead addr s = .ok v s :=
  ⟨_, byteAt_cell (target_ram hb h), memRead_cell (target_ram hb h)⟩

/-- Settles O60: the fetch and any operand byte at 0x1FFF are read from RAM, and the operation ends as the read of 0x2000
does. -/
theorem operandByteInIoWindowIsFatal : Obligations.OperandByteInIoWindowIsFatal := by
  intro s op e hr hb hn hop hf hw
  have hstep : s.pc.toNat < 0x2000 → step s = runOperation op e (s.advance 1) := by
    intro hpc
    obtain ⟨v, hv, hread⟩ := memRead_ram hb hpc
    obtain rfl : v = op := Option.some.inj (hv.symm.trans hop)
    exact step_of_memRead hr hread hf hw
  constructor
  · intro hpc h1
    have hfirst : (s.advance 1).pc = 0x2000 := by rw [State.advance_pc, hpc]; rfl
    have hlo := memRead_ioBase (s := s.advance 1) hb hn hfirst
    rw [hstep (by rw [hpc]; decide), runOperation_of_memRead_stop hw h1 hlo, State.raise, State.advance, hpc]
    rfl
  · intro hpc h2
    have hfirst : (s.advance 1).pc = 0x1FFF := by rw [State.advance_pc, hpc]; rfl
    have hsecond : (s.advance 1).pc + 1 = 0x2000 := by rw [hfirst]; rfl
    obtain ⟨lo, -, hlo⟩ :=
      memRead_ram (s := s.advance 1) hb (show (s.advance 1).pc.toNat < 0x2000 by rw [hfirst]; decide)
    have hhi := memRead_ioBase (s := s.advance 1) hb hn hsecond
    rw [hstep (by rw [hpc]; decide), runOperation_of_memRead_succ_stop hw h2 hlo hhi, State.raise,
      State.advance, hpc]
    rfl

end Sys2Proof.Machine

/-! ## The family 41_load.md: what a load does, and what it leaves unchanged

Every load ends in `State.loaded`, and the transfers and INX, INY do too: one equation for that state says what they do,
and one frame lemma what they leave. -/

namespace Sys2Proof.Machine

/-! ### The state a load leaves -/

/-- R120's effect of a load, as one record update. -/
theorem State.loaded_eq (s : State) (r : Reg) (v : Byte) (w : Nat) :
    s.loaded r v w = { s.setReg r v with p := statusZN v s.p, pc := s.pc + BitVec.ofNat 16 w } := by
  cases r <;> rfl

/-- `State.loaded` writes no other register, no reserved bit of `P` and no cell (R10, R17, R120). -/
theorem State.loaded_frame (s : State) (dst : Reg) (v : Byte) (w : Nat) :
    (∀ r, r ≠ dst → (s.loaded dst v w).reg r = s.reg r) ∧
      (∀ k, k ≠ 1 → k ≠ 7 → (s.loaded dst v w).p.getLsbD k = s.p.getLsbD k) ∧
      ∀ addr, (s.loaded dst v w).byteAt addr = s.byteAt addr := by
  refine ⟨fun r hr => ?_, fun k h1 h7 => ?_, fun addr => ?_⟩
  · rw [State.loaded_reg, if_neg hr]
  · rw [State.loaded_p, statusZN_other v s.p h1 h7]
  · exact byteAt_congr (by simp) (by simp) (by simp) (by simp) addr

/-! ### Immediate loads and the other register instructions -/

/-- Settles O13: an Immediate load is `State.loaded` of its operand byte, with width 1. -/
theorem immediateLoadsLoadTheirOperand : Obligations.ImmediateLoadsLoadTheirOperand := by
  intro i r d8 s h
  rw [exec_immLoad h, loadImm, State.loaded_eq]
  rfl

/-- An instruction that accesses no memory in `exec` has the effect of a load of some value, in every state. -/
theorem exec_eq_loaded {i : Instr} {dst : Reg}
    (h : (∃ d8, i.immLoad? = some (dst, d8)) ∨ (∃ src, i.transfer? = some (src, dst)) ∨ i.incReg? = some dst)
    (s : State) : ∃ v w, exec i s = .next (s.loaded dst v w) := by
  rcases h with ⟨d8, h⟩ | ⟨src, h⟩ | h
  · exact ⟨d8, 1, exec_immLoad h s⟩
  · exact ⟨s.reg src, 0, exec_transfer h s⟩
  · exact ⟨s.reg dst + 1, 0, exec_incReg h s⟩

/-- Settles O23: the frame of `State.loaded`. -/
theorem registerInstructionsFrame : Obligations.RegisterInstructionsFrame := by
  intro i dst s t hi ht
  obtain ⟨v, w, hl⟩ := exec_eq_loaded hi s
  obtain rfl : s.loaded dst v w = t := Host.Outcome.next.inj (hl.symm.trans ht)
  obtain ⟨hreg, hp, hmem⟩ := s.loaded_frame dst v w
  exact ⟨hreg, hp, by simp, hmem⟩

/-! ### Loads from memory -/

/-- `LD(r)` at an address that was resolved, the read still to be done (R120). -/
theorem load_ok (r : Reg) (ea : Word) (s : State) (w : Nat) :
    load r (.ok ea s) w = (memRead ea s).finish fun v s2 => .next (s2.loaded r v w) := rfl

/-- A load from memory whose operand bytes are known ends as the read of its effective address does. -/
theorem exec_memLoad_of_effAddr {i : Instr} {r : Reg} {o : MemOperand} {ea : Word} {s : State}
    (hi : i.memLoad? = some (r, o)) (h : effAddr o s = .ok ea s) :
    exec i s = (memRead ea s).finish fun v s2 => .next (s2.loaded r v (operandWidth o)) := by
  rw [exec_memLoad hi, loadMem, h, load_ok]

/-- Settles O14: the four cases are those of the byte read at the effective address. -/
theorem memoryLoadsLoadTheAddressedByte : Obligations.MemoryLoadsLoadTheAddressedByte := by
  intro i r o ea s hi hea
  rw [exec_memLoad_of_effAddr hi hea]
  refine ⟨fun c hc => ?_, fun hu => ?_, fun m hm hd => ?_, fun m hm hd => ?_⟩
  · rw [memRead_cell hc, Res.finish_ok, State.loaded_eq]
  · rw [memRead_unmapped hu, Res.finish_ok, State.loaded_eq]
    cases r <;> rfl
  · rw [memRead_io hm, Res.finish_stop, ioAccess_none hd]
    rfl
  · rw [memRead_io hm, Res.finish_stop, ioAccess_wired hd]

/-- Settles O24: a load that leaves the machine running has completed its read, which adds to the log at most; the rest is
the frame of `State.loaded`. -/
theorem memoryLoadsFrame : Obligations.MemoryLoadsFrame := by
  intro i dst o s t hi _ ht hrun
  obtain ⟨ea, hea⟩ := effAddr_ok o s
  rw [exec_memLoad_of_effAddr hi hea] at ht
  cases hm : memRead ea s with
  | stop out =>
    rw [hm, Res.finish_stop] at ht
    obtain ⟨f, rfl⟩ := memRead_stop_next (hm.trans (congrArg Res.stop ht))
    exact absurd hrun (by simp)
  | ok v s1 =>
    rw [hm, Res.finish_ok] at ht
    obtain rfl : s1.loaded dst v (operandWidth o) = t := Host.Outcome.next.inj ht
    obtain ⟨hreg, hp, hmem⟩ := s1.loaded_frame dst v (operandWidth o)
    obtain ⟨-, -, hread⟩ := memRead_frame hm
    have hbytes := fun addr => (hmem addr).trans (hread addr)
    obtain ⟨hs, -⟩ := memRead_sameButLog hm
    rw [hs] at hreg hp hbytes ⊢
    exact ⟨hreg, hp, by simp, hbytes⟩

/-! ### Load entries -/

/-- Settles O20: a well-formed entry runs as its pseudocode, which resolves, reads and loads; the resolver and the read
change the log at most, so `PC` and `P` are those before them. -/
theorem loadEntriesLoadFromTheResolvedAddress : Obligations.LoadEntriesLoadFromTheResolvedAddress := by
  intro op r m s hw
  rw [decodedExecutionIsThePseudocode op _ s hw]
  refine ⟨fun o h => runOperation_of_resolve_stop rfl h, fun ea s1 h => ?_⟩
  have hrun : runOperation op ⟨.ld r, m, m.width⟩ s =
      (memRead ea s1).finish fun v s2 => .next (s2.loaded r v m.width) := by
    rw [← load_ok, ← h]
    rfl
  rw [hrun]
  refine ⟨fun v s2 hread => ?_, fun o hread => ?_⟩
  · obtain ⟨h1, -⟩ := resolve_ok h
    obtain ⟨h2, -⟩ := memRead_sameButLog hread
    have hp : s2.p = s.p := by rw [h2, h1]
    have hpc : s2.pc = s.pc := by rw [h2, h1]
    rw [hread, Res.finish_ok, State.loaded_eq, hp, hpc]
  · rw [hread, Res.finish_stop]

end Sys2Proof.Machine

/-! ## The family 42_store.md: what a store does, and what it leaves unchanged

A store is one byte write followed by the advance of `PC`. One frame lemma for the byte write and one for the advance say
what the stores leave. -/

namespace Sys2Proof.Machine

/-! ### What a byte write and the advance leave -/

/-- A completed byte write changes no register, no flag and not `PC`, and no byte outside the cell of its address. -/
theorem memWrite_frame {s t : State} {addr : Word} {v : Byte} (h : memWrite addr v s = .ok () t) :
    ((∀ q, t.reg q = s.reg q) ∧ t.p = s.p ∧ t.pc = s.pc) ∧ (t.fault = s.fault ∧ t.cfg = s.cfg) ∧
      ∀ other, ¬ s.sameCell addr other → t.byteAt other = s.byteAt other := by
  rcases memWrite_ok h with ⟨c, hc, rfl⟩ | ⟨-, rfl⟩
  · exact ⟨by simp, by simp, fun other ho => byteAt_writeCell_other hc ho v⟩
  · exact ⟨⟨fun q => by cases q <;> rfl, rfl, rfl⟩, ⟨rfl, rfl⟩, fun other _ => State.byteAt_logged s _ other⟩

@[simp] theorem State.reg_advance (s : State) (n : Nat) (r : Reg) : (s.advance n).reg r = s.reg r := by
  cases r <;> rfl

/-- The advance of `PC` changes no byte that is read. -/
@[simp] theorem State.byteAt_advance (s : State) (n : Nat) (addr : Word) :
    (s.advance n).byteAt addr = s.byteAt addr :=
  byteAt_congr (s := s) (t := s.advance n) rfl rfl rfl rfl addr

/-- The log holds no register (R10, R23). -/
theorem State.sameButLog.reg_eq {s t : State} (h : s.sameButLog t) (r : Reg) : t.reg r = s.reg r := by
  rw [h]
  cases r <;> rfl

/-! ### Stores -/

/-- `ST(r)` at an address that was resolved, the write still to be done (R150). -/
theorem store_ok (r : Reg) (ea : Word) (s : State) (w : Nat) :
    store r (.ok ea s) w = (memWrite ea (s.reg r) s).finish fun _ s2 => .next (s2.advance w) := rfl

/-- A store whose operand bytes are known ends as the write to its effective address does. -/
theorem exec_store_of_effAddr {i : Instr} {r : Reg} {o : MemOperand} {ea : Word} {s : State}
    (hi : i.store? = some (r, o)) (h : effAddr o s = .ok ea s) :
    exec i s = (memWrite ea (s.reg r) s).finish fun _ s2 => .next (s2.advance (operandWidth o)) := by
  rw [exec_store hi, storeMem, h, store_ok]

/-- Settles O15: the four cases are those of the byte write to the effective address. -/
theorem storesWriteTheRegisterToTheAddressedCell : Obligations.StoresWriteTheRegisterToTheAddressedCell := by
  intro i r o ea s hi hea
  rw [exec_store_of_effAddr hi hea]
  refine ⟨fun c hc => ?_, fun hu => ?_, fun m hm hd => ?_, fun m hm hd => ?_⟩
  · rw [memWrite_cell hc, Res.finish_ok, State.advance, State.writeCell_pc]
  · rw [memWrite_unmapped hu, Res.finish_ok]
    rfl
  · rw [memWrite_io hm, Res.finish_stop, ioAccess_none hd]
    rfl
  · rw [memWrite_io hm, Res.finish_stop, ioAccess_wired hd]

/-- Settles O25: a store that leaves the machine running has completed its write; the rest is the frame of that write. -/
theorem storesFrame : Obligations.StoresFrame := by
  intro i r o ea s t hi _ hea ht hrun
  rw [exec_store_of_effAddr hi hea] at ht
  cases hm : memWrite ea (s.reg r) s with
  | stop out =>
    rw [hm, Res.finish_stop] at ht
    obtain ⟨f, rfl⟩ := memWrite_stop_next (hm.trans (congrArg Res.stop ht))
    exact absurd hrun (by simp)
  | ok _ s1 =>
    rw [hm, Res.finish_ok] at ht
    obtain rfl : s1.advance (operandWidth o) = t := Host.Outcome.next.inj ht
    obtain ⟨⟨hreg, hp, -⟩, hkeep, hmem⟩ := memWrite_frame hm
    exact ⟨fun q => (s1.reg_advance _ q).trans (hreg q), hp, hkeep,
      fun addr ha => (s1.byteAt_advance _ addr).trans (hmem addr ha)⟩

/-! ### Store entries -/

/-- Settles O21: a well-formed entry runs as its pseudocode, which resolves and writes; the resolver changes the log at
most, so the byte written is the register's before it, and neither it nor the write changes a register or `PC`. -/
theorem storeEntriesStoreToTheResolvedAddress : Obligations.StoreEntriesStoreToTheResolvedAddress := by
  intro op r m s hw
  rw [decodedExecutionIsThePseudocode op _ s hw]
  refine ⟨fun o h => runOperation_of_resolve_stop rfl h, fun ea s1 h => ?_⟩
  obtain ⟨hlog, -⟩ := resolve_ok h
  have hrun : runOperation op ⟨.st r, m, m.width⟩ s =
      (memWrite ea (s.reg r) s1).finish fun _ s2 => .next (s2.advance m.width) := by
    rw [← hlog.reg_eq r, ← store_ok, ← h]
    rfl
  rw [hrun]
  refine ⟨fun s2 hwrite => ?_, fun o hwrite => ?_⟩
  · obtain ⟨⟨hreg, hp, hpc⟩, -, -⟩ := memWrite_frame hwrite
    have hregs := fun q => (hreg q).trans (hlog.reg_eq q)
    have hp1 : s1.p = s.p := by rw [hlog]
    have hpc1 : s1.pc = s.pc := by rw [hlog]
    rw [hwrite, Res.finish_ok, State.advance, hpc, hpc1]
    exact ⟨rfl, hregs .a, hregs .x, hregs .y, hp.trans hp1⟩
  · rw [hwrite, Res.finish_stop]

end Sys2Proof.Machine

/-! ## The family 43_transfer.md: what a transfer does -/

namespace Sys2Proof.Machine

/-- An operation without operand bytes leaves `PC` behind its opcode byte, where the fetch put it (R170, R180). -/
theorem State.loaded_zero (s : State) (r : Reg) (v : Byte) :
    s.loaded r v 0 = { s.setReg r v with p := statusZN v s.p } := by
  have hpc : s.pc + BitVec.ofNat 16 0 = (s.setReg r v).pc := by rw [State.setReg_pc, BitVec.add_zero]
  rw [State.loaded_eq, hpc]

/-- Settles O17: a transfer is `State.loaded` of its source register, with no operand byte. -/
theorem transfersCopyTheSourceRegister : Obligations.TransfersCopyTheSourceRegister := by
  intro i src dst s h
  rw [exec_transfer h, ← State.loaded_zero]
  rfl

end Sys2Proof.Machine

/-! ## The family 44_increment.md: what the increments do, and what INC leaves unchanged

INX and INY are `State.loaded` of the sum. INC is one byte read and one byte write at one address: an equation for the run
in which both complete, and an inversion for the run that leaves the machine running, carry its statements. -/

namespace Sys2Proof.Machine

/-! ### The register increments -/

/-- Settles O18: INX and INY are `State.loaded` of the sum, with no operand byte. -/
theorem registerIncrementsAddOne : Obligations.RegisterIncrementsAddOne := by
  intro i r s h
  refine ⟨?_, BitVec.toNat_add (s.reg r) 1⟩
  rw [exec_incReg h, ← State.loaded_zero]
  rfl

/-! ### One read and one write at one address -/

/-- `SetZN` changes no register (R18). -/
@[simp] theorem State.reg_setZN (s : State) (v : Byte) (r : Reg) : (s.setZN v).reg r = s.reg r := by
  cases r <;> rfl

/-- `SetZN` changes no byte that is read. -/
@[simp] theorem State.byteAt_setZN (s : State) (v : Byte) (addr : Word) : (s.setZN v).byteAt addr = s.byteAt addr :=
  byteAt_congr (s := s) (t := s.setZN v) rfl rfl rfl rfl addr

/-- Two states that differ in the log only have the same cells behind their addresses. -/
theorem State.sameButLog.sameCell_iff {s t : State} (h : s.sameButLog t) (addr other : Word) :
    t.sameCell addr other ↔ s.sameCell addr other := by
  rw [h]
  rfl

/-- A completed read and a completed write at one address change no register, no flag and not `PC`, and no byte outside the
cell of that address. -/
theorem memRead_memWrite_frame {s s2 s3 : State} {ea : Word} {v b : Byte} (hr : memRead ea s = .ok v s2)
    (hw : memWrite ea b s2 = .ok () s3) :
    ((∀ q, s3.reg q = s.reg q) ∧ s3.p = s.p ∧ s3.pc = s.pc) ∧ (s3.fault = s.fault ∧ s3.cfg = s.cfg) ∧
      ∀ other, ¬ s.sameCell ea other → s3.byteAt other = s.byteAt other := by
  obtain ⟨hlog, -⟩ := memRead_sameButLog hr
  obtain ⟨-, -, hread⟩ := memRead_frame hr
  obtain ⟨⟨hreg, hp, hpc⟩, ⟨hfault, hcfg⟩, hmem⟩ := memWrite_frame hw
  refine ⟨⟨fun q => (hreg q).trans (hlog.reg_eq q), ?_, ?_⟩, ⟨?_, ?_⟩, fun other ho => ?_⟩
  · rw [hp, hlog]
  · rw [hpc, hlog]
  · rw [hfault, hlog]
  · rw [hcfg, hlog]
  · exact (hmem other (mt (hlog.sameCell_iff ea other).1 ho)).trans (hread other)

/-- `INCM` whose read and write complete (R183). -/
theorem incMem_of_memRead_memWrite {s s2 s3 : State} {ea : Word} {v : Byte} (hr : memRead ea s = .ok v s2)
    (hw : memWrite ea (v + 1) s2 = .ok () s3) (w : Nat) :
    incMem (.ok ea s) w = .next { s3 with p := statusZN (v + 1) s.p, pc := s.pc + BitVec.ofNat 16 w } := by
  obtain ⟨⟨-, hp, hpc⟩, -, -⟩ := memRead_memWrite_frame hr hw
  rw [incMem, Res.finish_ok, hr, Res.finish_ok, hw, Res.finish_ok, ← hp, ← hpc]
  rfl

/-- `INCM` whose read ends the step ends as the read does: no write is attempted (R183). -/
theorem incMem_of_memRead_stop {s : State} {ea : Word} {o : Outcome} (h : memRead ea s = .stop o) (w : Nat) :
    incMem (.ok ea s) w = o := by
  rw [incMem, Res.finish_ok, h, Res.finish_stop]

/-- `INCM` that reaches a next state without a fatal condition has completed its read and its write. -/
theorem incMem_completed {s t : State} {ea : Word} {w : Nat} (h : incMem (.ok ea s) w = .next t)
    (ht : t.seq ≠ .faulted) : ∃ v s2 s3, memRead ea s = .ok v s2 ∧ memWrite ea (v + 1) s2 = .ok () s3 ∧
      t = (s3.setZN (v + 1)).advance w := by
  rw [incMem, Res.finish_ok] at h
  cases hr : memRead ea s with
  | stop o =>
    rw [hr, Res.finish_stop] at h
    obtain ⟨f, rfl⟩ := memRead_stop_next (hr.trans (congrArg Res.stop h))
    exact absurd (s.raise_seq f) ht
  | ok v s2 =>
    rw [hr, Res.finish_ok] at h
    cases hw : memWrite ea (v + 1) s2 with
    | stop o =>
      rw [hw, Res.finish_stop] at h
      obtain ⟨f, rfl⟩ := memWrite_stop_next (hw.trans (congrArg Res.stop h))
      exact absurd (s2.raise_seq f) ht
    | ok _ s3 =>
      rw [hw, Res.finish_ok] at h
      exact ⟨v, s2, s3, rfl, hw, (Host.Outcome.next.inj h).symm⟩

/-! ### INC -/

/-- INC whose operand bytes are known is `INCM` at its effective address. -/
theorem exec_incMem_of_effAddr {i : Instr} {o : MemOperand} {ea : Word} {s : State} (hi : i.incMem? = some o)
    (h : effAddr o s = .ok ea s) : exec i s = incMem (.ok ea s) (operandWidth o) := by
  rw [exec_incMem hi, incMemAt, h]

/-- Settles O16: the four cases are those of the read, and the write to the same address completes where the read does. -/
theorem memoryIncrementsAddOneToTheAddressedCell : Obligations.MemoryIncrementsAddOneToTheAddressedCell := by
  intro i o ea s hi hea
  rw [exec_incMem_of_effAddr hi hea]
  refine ⟨fun c hc => ?_, fun hu => ?_, fun m hm hd => ?_, fun m hm hd => ?_⟩
  · exact incMem_of_memRead_memWrite (memRead_cell hc) (memWrite_cell hc _) _
  · have hu2 : (s.logged (.unmappedRead ea)).target ea = .unmapped := (s.target_logged _ ea).trans hu
    rw [incMem_of_memRead_memWrite (memRead_unmapped hu) (memWrite_unmapped hu2 _), State.logged, State.logged_log,
      List.append_assoc]
    rfl
  · rw [incMem_of_memRead_stop (memRead_io hm), ioAccess_none hd]
    rfl
  · rw [incMem_of_memRead_stop (memRead_io hm), ioAccess_wired hd]

/-- Settles O22: a well-formed entry runs as its pseudocode, which resolves, reads and writes; the resolver changes the log
at most, so the registers, `P` and `PC` are those before it. -/
theorem incrementEntriesIncrementTheResolvedAddress : Obligations.IncrementEntriesIncrementTheResolvedAddress := by
  intro op m s hw
  rw [decodedExecutionIsThePseudocode op _ s hw]
  refine ⟨fun o h => runOperation_of_resolve_stop rfl h, fun ea s1 h => ?_⟩
  have hrun : runOperation op ⟨.incm, m, m.width⟩ s = incMem (.ok ea s1) m.width := by
    rw [← h]
    rfl
  rw [hrun]
  refine ⟨fun v s2 s3 hread hwrite => ?_, fun o hread => incMem_of_memRead_stop hread _⟩
  obtain ⟨hlog, -⟩ := resolve_ok h
  obtain ⟨⟨hreg, -, -⟩, -, -⟩ := memRead_memWrite_frame hread hwrite
  have hregs := fun q => (hreg q).trans (hlog.reg_eq q)
  have hp1 : s1.p = s.p := by rw [hlog]
  have hpc1 : s1.pc = s.pc := by rw [hlog]
  rw [incMem_of_memRead_memWrite hread hwrite, hp1, hpc1]
  exact ⟨rfl, hregs .a, hregs .x, hregs .y⟩

/-- Settles O26: an INC that leaves the machine running has completed its read and its write; the rest is their frame, and
`SetZN` and the advance of `PC` change neither a register nor memory. -/
theorem memoryIncrementsFrame : Obligations.MemoryIncrementsFrame := by
  intro i o ea s t hi _ hea ht hrun
  rw [exec_incMem_of_effAddr hi hea] at ht
  obtain ⟨v, s2, s3, hr, hw, rfl⟩ := incMem_completed ht (by rw [hrun]; decide)
  obtain ⟨⟨hreg, hp, -⟩, hkeep, hmem⟩ := memRead_memWrite_frame hr hw
  refine ⟨fun q => ?_, fun k h1 h7 => ?_, hkeep, fun addr ha => ?_⟩
  · rw [State.reg_advance, State.reg_setZN, hreg]
  · rw [State.advance_p, State.setZN_p, statusZN_other _ _ h1 h7, hp]
  · rw [State.byteAt_advance, State.byteAt_setZN, hmem addr ha]

end Sys2Proof.Machine

/-! ## The family 45_control_sequencer.md: fetch, decode, execute, the halt, and how long a run can last

A step is the opcode read at `PC` and then the entry of the byte read. With a well-formed table and no device wired,
every operation on the way completes or ends the step in a next state; under `Bus` each step that leaves the machine
running brings `PC` nearer to the I/O window, where no fetch completes. -/

namespace Sys2Proof.Machine

/-! ### Fetch and decode -/

/-- A step whose opcode read ends the step ends as that read does (R196). -/
theorem step_of_memRead_stop {s : State} {o : Outcome} (hr : s.seq = .running) (h : memRead s.pc s = .stop o) :
    step s = o := by
  rw [step_running hr, runInstruction, fetchOpcode, h, Res.bind_stop, Res.finish_stop]

/-- A step whose opcode read completes decodes the byte read, with `PC` past it (R196, R197). -/
theorem step_of_memRead_ok {s s1 : State} {op : Byte} (hr : s.seq = .running) (h : memRead s.pc s = .ok op s1) :
    step s = decodeAndRun op (s1.advance 1) := by
  rw [step_running hr, runInstruction, fetchOpcode, h, Res.bind_ok, Res.finish_ok]

theorem decodeAndRun_of_find_none {op : Byte} {s : State} (h : s.cfg.dt.find op = none) :
    decodeAndRun op s = .next (s.raise (.unimplementedOpcode op s.pc)) := by
  simp only [decodeAndRun, h]

theorem decodeAndRun_of_find {op : Byte} {e : Entry} {s : State} (h : s.cfg.dt.find op = some e) :
    decodeAndRun op s = runEntry op e s := by
  simp only [decodeAndRun, h]

/-- Settles O7: the opcode read ends the step, or the byte read is looked up in the table of the state before it. -/
theorem stepFetchesThenDecodes : Obligations.StepFetchesThenDecodes := by
  intro s hr
  refine ⟨fun o h => ⟨step_of_memRead_stop hr h, ?_⟩, fun op s1 h => ?_⟩
  · rintro t rfl
    obtain ⟨f, rfl⟩ := memRead_stop_next h
    rfl
  · obtain ⟨hlog, -⟩ := memRead_sameButLog h
    have hcfg : (s1.advance 1).cfg = s.cfg := by rw [State.advance_cfg, hlog]
    have hadv : s1.advance 1 = { s1 with pc := s.pc + 1 } := by rw [hlog]; rfl
    rw [step_of_memRead_ok hr h, ← hcfg, ← hadv]
    refine ⟨fun hf => ?_, fun e hf => decodeAndRun_of_find hf⟩
    rw [decodeAndRun_of_find_none hf, hadv]
    rfl

/-- Settles O9, by the two arms of `step` for a machine that does not run. -/
theorem onlyRunningStatesHaveAStep : Obligations.OnlyRunningStatesHaveAStep := by
  intro s
  constructor <;> intro h <;> simp only [step, h]

/-- A byte read does not depend on `PC`. -/
theorem memRead_advance {s s1 : State} {addr : Word} {v : Byte} (h : memRead addr s = .ok v s1) (n : Nat) :
    memRead addr (s.advance n) = .ok v (s1.advance n) := by
  rcases memRead_ok h with ⟨c, hc, rfl, rfl⟩ | ⟨hu, rfl, rfl⟩
  · rw [memRead_cell (s := s1.advance n) hc]
    cases c <;> rfl
  · exact memRead_unmapped (s := s.advance n) hu

/-- An entry whose operand bytes stand at `PC` executes the instruction that its form makes from them (R83, R198). -/
theorem runEntry_of_makes {e : Entry} {sh : Shape} {operands : List Byte} {i : Instr} {s : State} (op : Byte)
    (hs : e.shape = some sh) (hm : sh.Makes operands i)
    (h : ∀ k (hk : k < operands.length), memRead (s.pc + BitVec.ofNat 16 k) s = .ok operands[k] s) :
    runEntry op e s = exec i s := by
  cases hm with
  | f1 i => simp only [runEntry, hs]
  | f2 mk d8 =>
    have h0 : memRead s.pc s = .ok d8 s := by simpa using h 0 Nat.one_pos
    simp only [runEntry, hs, h0, Res.finish_ok]
  | f3 mk lo hi =>
    have h0 : memRead s.pc s = .ok lo s := by simpa using h 0 Nat.two_pos
    have h1 : memRead (s.pc + 1) s = .ok hi s := h 1 Nat.one_lt_two
    simp only [runEntry, hs, readWord_of_memRead h0 h1, Res.finish_ok]

/-- Settles O6: the bytes are an opcode byte with an entry and the operand bytes of its form, which stand at the
advanced `PC`. -/
theorem stepRunsTheDecodedInstruction : Obligations.StepRunsTheDecodedInstruction := by
  intro s bytes i hr hd hbytes
  obtain ⟨op, e, sh, operands, hf, hs, hm, rfl⟩ := exists_of_decodeWith_eq_instr hd
  rw [List.append_nil] at hbytes
  have hop : memRead s.pc s = .ok op s := by
    have h0 := hbytes 0 (Nat.succ_pos _)
    rwa [BitVec.add_zero] at h0
  rw [step_of_memRead_ok hr hop, decodeAndRun_of_find (s := s.advance 1) hf]
  refine runEntry_of_makes op hs hm fun k hk => memRead_advance ?_ 1
  have haddr : (s.advance 1).pc + BitVec.ofNat 16 k = s.pc + BitVec.ofNat 16 (k + 1) := by
    rw [State.advance_pc, BitVec.add_assoc, ← BitVec.ofNat_add, Nat.add_comm]
  rw [haddr]
  exact hbytes (k + 1) (Nat.succ_lt_succ hk)

/-! ### The halt -/

/-- `HALT` without operand bytes sets `SEQ` and nothing else (R202). -/
theorem halt_zero (s : State) : halt 0 s = .next { s with seq := .halted } := by
  rw [halt, State.advance, BitVec.add_zero]

/-- Settles O19: BRK has no operand byte, so that `PC` stays where it is. -/
theorem haltOpcodeOnlyHalts : Obligations.HaltOpcodeOnlyHalts := ⟨rfl, halt_zero⟩

/-- Settles O8: the read gives 0x00 and logs, and a well-formed table has the halt entry for that byte. -/
theorem opcodeFetchFromUnmappedRangeHalts : Obligations.OpcodeFetchFromUnmappedRangeHalts := by
  intro s hr hb hw h1 h2
  rw [step_of_memRead hr (memRead_unmapped (target_unmapped hb h1 h2)) (find_brk hw) (by decide)]
  exact halt_zero _

/-! ### A running machine has a next state -/

/-- The operation went on with no device wired, or ended the step in a next state. -/
def Res.Proceeds {α : Type} : Res α → Prop
  | .ok _ s => s.cfg.ioDevice = .none
  | .stop o => ∃ t, o = .next t

theorem Res.Proceeds.bind {α β : Type} {r : Res α} {k : α → State → Res β} (h : r.Proceeds)
    (hk : ∀ v s, s.cfg.ioDevice = .none → (k v s).Proceeds) : (r.bind k).Proceeds := by
  cases r with
  | ok v s => exact hk v s h
  | stop o => exact h

theorem Res.Proceeds.finish {α : Type} {r : Res α} {k : α → State → Outcome} (h : r.Proceeds)
    (hk : ∀ v s, s.cfg.ioDevice = .none → ∃ t, k v s = .next t) : ∃ t, r.finish k = .next t := by
  cases r with
  | ok v s => exact hk v s h
  | stop o => exact h

section

variable {s : State} (hn : s.cfg.ioDevice = .none)
include hn

theorem memRead_proceeds (addr : Word) : (memRead addr s).Proceeds := by
  cases h : s.target addr with
  | cell c => rw [memRead_cell h]; exact hn
  | ioWindow m => rw [memRead_io h]; exact ⟨_, ioAccess_none hn ..⟩
  | unmapped => rw [memRead_unmapped h]; exact hn

theorem memWrite_proceeds (addr : Word) (v : Byte) : (memWrite addr v s).Proceeds := by
  cases h : s.target addr with
  | cell c => rw [memWrite_cell h, Res.Proceeds, State.writeCell_cfg]; exact hn
  | ioWindow m => rw [memWrite_io h]; exact ⟨_, ioAccess_none hn ..⟩
  | unmapped => rw [memWrite_unmapped h]; exact hn

theorem readWord_proceeds (addr : Word) : (readWord addr s).Proceeds :=
  (memRead_proceeds hn addr).bind fun _ _ h1 => (memRead_proceeds h1 _).bind fun _ _ h2 => h2

theorem effAddr_proceeds (o : MemOperand) : (effAddr o s).Proceeds := by
  obtain ⟨ea, h⟩ := effAddr_ok o s
  rw [h]
  exact hn

/-- The resolver reads at `PC` and computes an address; `NoneAddressing` is fatal, not refused (R110). -/
theorem resolve_proceeds (op : Byte) (m : Mode) : (resolve op m s).Proceeds := by
  cases m with
  | immediate => exact hn
  | noneAddressing => exact ⟨_, rfl⟩
  | absolute | absoluteX | absoluteY => exact (readWord_proceeds hn _).bind fun _ _ h => effAddr_proceeds h _
  | _ => exact (memRead_proceeds hn _).bind fun _ _ h => effAddr_proceeds h _

/-- With no device wired, the pseudocode of every operation gives a next state (R49, R86). -/
theorem runOperation_exists_next (op : Byte) (e : Entry) : ∃ t, runOperation op e s = .next t := by
  rw [runOperation]
  cases e.op with
  | tr | incr | halt => exact ⟨_, rfl⟩
  | ld r =>
    refine (resolve_proceeds hn op e.mode).finish fun ea s1 h1 => ?_
    exact (memRead_proceeds h1 ea).finish fun v s2 _ => ⟨_, rfl⟩
  | st r =>
    refine (resolve_proceeds hn op e.mode).finish fun ea s1 h1 => ?_
    exact (memWrite_proceeds h1 ea _).finish fun _ s2 _ => ⟨_, rfl⟩
  | incm =>
    refine (resolve_proceeds hn op e.mode).finish fun ea s1 h1 => ?_
    refine (memRead_proceeds h1 ea).finish fun v s2 h2 => ?_
    exact (memWrite_proceeds h2 ea _).finish fun _ s3 _ => ⟨_, rfl⟩

/-- A running machine with a well-formed table and no device wired has a next state (R200). -/
theorem step_exists_next (hr : s.seq = .running) (hw : Table.wf s.cfg.dt.rows = true) : ∃ t, step s = .next t := by
  cases h : memRead s.pc s with
  | stop o =>
    have hp := memRead_proceeds hn s.pc
    rw [h] at hp
    rwa [step_of_memRead_stop hr h]
  | ok op s1 =>
    obtain ⟨hlog, -⟩ := memRead_sameButLog h
    have hn1 : s1.cfg.ioDevice = .none := by rw [hlog]; exact hn
    cases hf : s.cfg.dt.find op with
    | some e =>
      rw [step_of_memRead hr h hf (entry_wf_of_find hw hf)]
      exact runOperation_exists_next (s := s1.advance 1) hn1 op e
    | none =>
      have hf1 : (s1.advance 1).cfg.dt.find op = none := by rw [State.advance_cfg, hlog]; exact hf
      exact ⟨_, (step_of_memRead_ok hr h).trans (decodeAndRun_of_find_none hf1)⟩

end

/-- A step halts only by an entry whose operation is `HALT` (R202). -/
theorem exists_halt_of_step_halted {s t : State} (h : step s = .next t) (ht : t.seq = .halted) :
    ∃ op e, (memRead s.pc s).value = some op ∧ s.cfg.dt.find op = some e ∧ e.op = .halt := by
  obtain ⟨hr, ⟨f, pc, l, -, rfl⟩ | ⟨op, e, l, hm, hf, -, hc⟩⟩ := step_fatal_or_completed h
  · cases ht
  · refine ⟨op, e, by rw [hm, Res.value_ok], hf, ?_⟩
    rcases hc.seq with ⟨hop, -⟩ | ⟨-, hq⟩
    · exact hop
    · exact absurd (ht.symm.trans (hq.trans hr)) (by decide)

/-- Settles O12: no operation is refused, and only the halt entry halts. -/
theorem everyRunningStateHasANextState : Obligations.EveryRunningStateHasANextState := by
  intro s hr hw hn
  obtain ⟨t, h⟩ := step_exists_next hn hr hw
  exact ⟨t, h, exists_halt_of_step_halted h⟩

/-! ### How long a run can last -/

/-- The steps that a run under `Bus` can still take with `PC` here: one for every address up to the I/O window at 0x2000,
through the wrap at 0xFFFF, and the one that ends the run in that window or the unmapped range (R205). -/
def stepsLeft (pc : Word) : Nat :=
  if pc.toNat < 0x2000 then 0x2001 - pc.toNat else if pc.toNat < 0x8000 then 1 else 0x12001 - pc.toNat

theorem stepsLeft_pos (pc : Word) : 0 < stepsLeft pc := by
  rw [stepsLeft]
  split_ifs <;> omega

theorem stepsLeft_le (pc : Word) : stepsLeft pc ≤ 0xA001 := by
  rw [stepsLeft]
  split_ifs <;> omega

/-- An instruction of up to three bytes, fetched from RAM or ROM, leaves fewer steps: one that reaches beyond 0x1FFF ends
inside the I/O window. -/
theorem stepsLeft_add_lt {pc : Word} (h : pc.toNat < 0x2000 ∨ 0x8000 ≤ pc.toNat) {w : Nat} (hw : w ≤ 2) :
    stepsLeft (pc + BitVec.ofNat 16 (1 + w)) < stepsLeft pc := by
  have hpc : (pc + BitVec.ofNat 16 (1 + w)).toNat = (pc.toNat + (1 + w)) % 65536 := by
    rw [BitVec.toNat_add, BitVec.toNat_ofNat, Nat.add_mod_mod]
  rw [stepsLeft, stepsLeft, hpc]
  split_ifs <;> omega

/-- A step that leaves the machine running under `Bus` has fetched its opcode from RAM or ROM: a fetch from the I/O window
is fatal and one from the unmapped range halts (R49, R52). -/
theorem pc_backed_of_step_running {s t : State} (hb : s.cfg.memImpl = .bus) (hw : Table.wf s.cfg.dt.rows = true)
    (h : step s = .next t) (ht : t.seq = .running) : s.pc.toNat < 0x2000 ∨ 0x8000 ≤ s.pc.toNat := by
  obtain ⟨hr, ⟨f, pc, l, -, rfl⟩ | ⟨op, e, l, hm, -, -, -⟩⟩ := step_fatal_or_completed h
  · cases ht
  · by_contra hpc
    by_cases hio : s.pc.toNat < 0x4000
    · rw [memRead_io (target_io hb (by omega) hio)] at hm
      cases hm
    · rw [opcodeFetchFromUnmappedRangeHalts s hr hb hw (by omega) (by omega)] at h
      cases h
      cases ht

/-- Under `Bus` every step that leaves the machine running leaves fewer steps (R205). -/
theorem stepsLeft_lt_of_step_running {s t : State} (hb : s.cfg.memImpl = .bus) (hw : Table.wf s.cfg.dt.rows = true)
    (h : step s = .next t) (ht : t.seq = .running) : stepsLeft t.pc < stepsLeft s.pc := by
  have hpc := pc_backed_of_step_running hb hw h ht
  obtain ⟨-, ⟨f, pc, l, -, rfl⟩ | ⟨op, e, l, -, hf, -, hc⟩⟩ := step_fatal_or_completed h
  · cases ht
  · rw [hc.pc, State.advance_pc, BitVec.add_assoc, ← BitVec.ofNat_add]
    exact stepsLeft_add_lt hpc (entry_width_le (entry_wf_of_find hw hf))

theorem runLoop_succ_of_step {s t : State} (hr : s.seq = .running) (h : step s = .next t) (fuel : Nat) :
    runLoop (fuel + 1) s = runLoop fuel t := by
  simp only [runLoop, hr, h]

/-- The run loop leaves a machine that has ended as it is (R201). -/
theorem runLoop_of_ended {s : State} (h : s.endedNormally ∨ s.endedAbnormally) (fuel : Nat) :
    runLoop fuel s = .next s := by
  cases fuel with
  | zero => rfl
  | succ fuel => rcases h with h | h <;> simp only [runLoop, h]

/-- A machine runs or has ended (R19, R206). -/
theorem State.running_or_ended (s : State) : s.seq = .running ∨ s.endedNormally ∨ s.endedAbnormally := by
  rw [State.endedNormally, State.endedAbnormally]
  cases s.seq <;> simp

/-- Under `Bus` a run has ended after as many steps as `PC` leaves it. -/
theorem runLoop_ends {s : State} (hb : s.cfg.memImpl = .bus) (hn : s.cfg.ioDevice = .none)
    (hw : Table.wf s.cfg.dt.rows = true) {fuel : Nat} (hfuel : stepsLeft s.pc ≤ fuel) :
    ∃ t, runLoop fuel s = .next t ∧ (t.endedNormally ∨ t.endedAbnormally) := by
  induction fuel generalizing s with
  | zero => exact absurd hfuel (Nat.not_le.2 (stepsLeft_pos s.pc))
  | succ fuel ih =>
    rcases s.running_or_ended with hr | hend
    · obtain ⟨t, h⟩ := step_exists_next hn hr hw
      rw [runLoop_succ_of_step hr h]
      rcases t.running_or_ended with ht | hend
      · have hlt := stepsLeft_lt_of_step_running hb hw h ht
        rw [← stepsNeverChangeTheConfiguration s t h] at hb hn hw
        exact ih hb hn hw (by omega)
      · exact ⟨t, runLoop_of_ended hend fuel, hend⟩
    · exact ⟨s, runLoop_of_ended hend _, hend⟩

/-- Every well-formed table maps 0xE8 to INX (R82 (e), R84). -/
theorem find_inx {t : TableChoice} (h : Table.wf t.rows = true) : t.find 0xE8 = some ⟨.incr .x, .noneAddressing, 0⟩ :=
  TableChoice.find_of_find_base h (by decide)

/-- Under `Flat`, a step at a cell that holds 0xE8 is INX: it keeps the machine running and writes no cell (R54, R181). -/
theorem step_flat_inx {s : State} (hm : s.cfg.memImpl = .flat) (hw : Table.wf s.cfg.dt.rows = true)
    (hr : s.seq = .running) (h : Memory.read s.flat s.pc.toNat = 0xE8) :
    ∃ t, step s = .next t ∧ t.seq = .running ∧ t.flat = s.flat := by
  have hread : memRead s.pc s = .ok 0xE8 s := by rw [memRead_cell (target_flat hm s.pc), State.readCell, h]
  rw [step_of_memRead hr hread (find_inx hw) (by decide)]
  exact ⟨_, rfl, hr, rfl⟩

/-- Under `Flat` a memory of 0xE8 runs on for any number of steps. -/
theorem runLoop_flat_inx {s : State} (hm : s.cfg.memImpl = .flat) (hw : Table.wf s.cfg.dt.rows = true)
    (hr : s.seq = .running) (h : ∀ addr : Word, Memory.read s.flat addr.toNat = 0xE8) (fuel : Nat) :
    ∃ t, runLoop fuel s = .next t ∧ t.seq = .running := by
  induction fuel generalizing s with
  | zero => exact ⟨s, rfl, hr⟩
  | succ fuel ih =>
    obtain ⟨t, hstep, ht, hflat⟩ := step_flat_inx hm hw hr (h s.pc)
    rw [runLoop_succ_of_step hr hstep]
    rw [← stepsNeverChangeTheConfiguration s t hstep] at hm hw
    exact ih hm hw ht (by rwa [hflat])

/-- Settles O54: under `Bus` by the steps that `PC` leaves, at most 0xA001 anywhere; under `Flat` by INX after INX. -/
theorem busRunsEndWithin40961StepsFlatRunsNeedNot : Obligations.BusRunsEndWithin40961StepsFlatRunsNeedNot :=
  ⟨fun s hb hn hw => runLoop_ends hb hn hw (stepsLeft_le s.pc),
    fun _ fuel hm hw hr h => runLoop_flat_inx hm hw hr h fuel⟩

end Sys2Proof.Machine

/-! ## The family 60_exceptions.md: what a fatal condition leaves

A step that ends in `Faulted` is the fatal alternative of the model's inversion of a step, `step_summary`: a completed
operation of a running machine never sets `Faulted`. -/

namespace Sys2Proof.Machine

/-- A step that ends in `Faulted` has raised a fatal condition, and until then it has changed `PC` and the log at most: the
log has only grown, and `PC` has moved past the opcode exactly where the fetch completed (R196, R225, R226). -/
theorem exists_raise_of_step_faulted {s t : State} (h : step s = .next t) (ht : t.seq = .faulted) :
    ∃ f pc l, t = State.raise { s with pc := pc, log := l } f ∧ s.log <+: l ∧
      ((memRead s.pc s).value = none → pc = s.pc) ∧ ((memRead s.pc s).value ≠ none → pc = s.pc + 1) := by
  obtain ⟨hr, ⟨f, s1, hs1, hlog, hfetch, -, rfl⟩ | ⟨op, e, s1, -, -, hs1, -, -, hc⟩⟩ := step_summary h
  · refine ⟨f, s1.pc, s1.log, ?_, hlog, fun hv => by rw [hfetch.1 hv], fun hv => ?_⟩
    · rcases hs1 with rfl | ⟨s0, h0, rfl⟩
      · rfl
      · rw [h0]
        rfl
    · obtain ⟨s0, h0, rfl⟩ := hs1.resolve_left (mt hfetch.2 hv)
      rw [h0]
      rfl
  · have hrun : (s1.advance 1).seq = .running := by rw [State.advance_seq, hs1, hr]
    exact absurd ht (hc.seq_ne_faulted hrun)

/-- Settles O31: `raise` writes the latch and `SEQ` only, and before it only `PC` and the log have changed. -/
theorem fatalConditionsArePrecise : Obligations.FatalConditionsArePrecise := by
  intro s t h ht
  obtain ⟨f, pc, l, rfl, hlog, hstay, hpast⟩ := exists_raise_of_step_faulted h ht
  exact ⟨⟨Option.some_ne_none f, ⟨rfl, rfl, rfl, rfl⟩, ⟨rfl, rfl, rfl⟩, rfl⟩, hstay, hpast, hlog⟩

end Sys2Proof.Machine

/-! ## The family 70_reset_and_hazards.md: the lifecycle commands and the host's accesses

What a command answers by `SEQ` is said once. The image and the reset vector stand from 0x8000 up, where every access is
to a cell of its own, so that `load` and `reset` always complete; that every command and access keeps the invariant is one
lemma per operation. -/

namespace Sys2Proof.Machine

/-! ### Creation -/

theorem create_of_wf {c : Config} (h : c.wf) : create c = .next (State.created c) := by
  rw [create, if_pos h]

/-- `create` answers with a state only for an accepted configuration (R250). -/
theorem wf_of_create_next {c : Config} {t : State} (h : create c = .next t) : c.wf ∧ t = State.created c := by
  rw [create] at h
  split at h
  · cases h
    exact ⟨‹_›, rfl⟩
  · cases h

/-- Settles O47: the fields of `State.created`. -/
theorem createGivesTheInitialState : Obligations.CreateGivesTheInitialState := by
  intro c h
  refine ⟨State.created c, create_of_wf h, ⟨rfl, rfl, rfl, rfl, rfl⟩, ⟨rfl, rfl, rfl, rfl⟩, fun hb => ?_, fun hf => ?_⟩
  · exact ⟨if_pos hb, if_pos hb⟩
  · exact if_pos hf

/-! ### Commands and accesses by the sequencer's state -/

theorem whenHalted_of_halted {s : State} (h : s.seq = .halted) (k : Outcome) : whenHalted s k = k := by
  simp only [whenHalted, h]

theorem whenHalted_of_faulted {s : State} (h : s.seq = .faulted) (k : Outcome) :
    whenHalted s k = .refused .commandWhenFaulted := by
  simp only [whenHalted, h]

theorem whenHalted_of_running {s : State} (h : s.seq = .running) (k : Outcome) :
    whenHalted s k = .refused .commandWhenRunning := by
  simp only [whenHalted, h]

theorem hostAccess_of_halted {α : Type} {s : State} (h : s.seq = .halted) (r : Res α) : hostAccess s r = r := by
  simp only [hostAccess, h]

theorem hostAccess_of_faulted {α : Type} {s : State} (h : s.seq = .faulted) (r : Res α) :
    hostAccess s r = .stop (.refused .commandWhenFaulted) := by
  simp only [hostAccess, h]

theorem hostAccess_of_running {α : Type} {s : State} (h : s.seq = .running) (r : Res α) :
    hostAccess s r = .stop (.refused .commandWhenRunning) := by
  simp only [hostAccess, h]

@[simp] theorem thenCommand_next (s : State) (k : State → Outcome) : thenCommand (.next s) k = k s := rfl

@[simp] theorem thenCommand_refused (r : Refusal) (k : State → Outcome) :
    thenCommand (.refused r) k = .refused r := rfl

/-- `run` only sets `SEQ` (R254). -/
theorem startRun_of_halted {s : State} (h : s.seq = .halted) : startRun s = .next { s with seq := .running } :=
  whenHalted_of_halted h _

theorem runCommand_of_startRun {s t : State} (h : startRun s = .next t) (fuel : Nat) :
    runCommand fuel s = runLoop fuel t := by
  rw [runCommand, h, thenCommand_next]

/-- `load_and_run` whose three commands complete is the run from the state they leave (R255). -/
theorem loadAndRun_of_commands {s s1 s2 s3 : State} {program : List Byte} (h1 : loadProgram program s = .next s1)
    (h2 : resetCommand s1 = .next s2) (h3 : startRun s2 = .next s3) (fuel : Nat) :
    loadAndRun fuel program s = runLoop fuel s3 := by
  rw [loadAndRun, h1, thenCommand_next, h2, thenCommand_next, runCommand_of_startRun h3]

/-! ### The vector -/

/-- A byte read from 0x8000 up gives a byte and changes nothing (R50, R54). -/
theorem memRead_high (s : State) {addr : Word} (h : 0x8000 ≤ addr.toNat) :
    ∃ b, s.byteAt addr = some b ∧ memRead addr s = .ok b s := by
  obtain ⟨⟨c, hc⟩, -⟩ := target_high s h
  exact ⟨s.readCell c, byteAt_cell hc, memRead_cell hc⟩

/-- `reset` of a halted machine takes `PC` from the two bytes of the vector (R253). -/
theorem resetCommand_of_halted {s : State} (h : s.seq = .halted) : ∃ lo hi,
    s.byteAt 0xFFFC = some lo ∧ s.byteAt 0xFFFD = some hi ∧
      resetCommand s = .next { s with a := 0x00, x := 0x00, y := 0x00, p := 0x00, pc := assemble hi lo } := by
  obtain ⟨lo, hlo, hread0⟩ := memRead_high s (addr := 0xFFFC) (by decide)
  obtain ⟨hi, hhi, hread1⟩ := memRead_high s (addr := 0xFFFD) (by decide)
  exact ⟨lo, hi, hlo, hhi, by
    rw [resetCommand, whenHalted_of_halted h, readWord_of_memRead hread0 hread1, Res.finish_ok]⟩

/-- Settles O51: the word of the vector, in numbers. -/
theorem resetZeroesRegistersAndSamplesTheVector : Obligations.ResetZeroesRegistersAndSamplesTheVector := by
  intro s h
  obtain ⟨lo, hi, hlo, hhi, hreset⟩ := resetCommand_of_halted h
  exact ⟨lo, hi, assemble hi lo, hlo, hhi, toNat_assemble hi lo, hreset⟩

/-! ### The load -/

/-- `load` of an image that fits is the image's bytes and then the vector's word (R251). -/
theorem loadProgram_of_writes {s s1 t : State} {program : List Byte} (h : s.seq = .halted)
    (hlen : program.length ≤ 0x8000) (hbytes : writeBytes 0x8000 program s = .ok () s1)
    (hword : writeWord 0xFFFC 0x8000 s1 = .ok () t) : loadProgram program s = .next t := by
  rw [loadProgram, whenHalted_of_halted h, if_pos hlen, hbytes, Res.finish_ok, hword, Res.finish_ok]

/-- A word write from 0x8000 up writes its two bytes and nothing else. -/
theorem writeWord_high {s : State} (hi : s.memoryInv) {addr : Word} (h : 0x8000 ≤ addr.toNat)
    (hlt : addr.toNat < 0xFFFF) (w : Word) :
    ∃ t, writeWord addr w s = .ok () t ∧ SameButMemory s t ∧ t.byteAt addr = some (lowByte w) ∧
      t.byteAt (addr + 1) = some (highByte w) ∧
      ∀ other, other ≠ addr → other ≠ addr + 1 → t.byteAt other = s.byteAt other := by
  have hsucc : (addr + 1).toNat = addr.toNat + 1 := by bv_omega
  have hne : addr ≠ addr + 1 := fun e => by rw [← e] at hsucc; omega
  obtain ⟨s1, hlo, hsame1, hi1, hbyte1, hother1⟩ := memWrite_high hi h (lowByte w)
  obtain ⟨t, hhi, hsame2, -, hbyte2, hother2⟩ := memWrite_high hi1 (addr := addr + 1) (by omega) (highByte w)
  refine ⟨t, (writeWord_of_memWrite hlo).trans hhi, hsame1.trans hsame2, ?_, hbyte2, fun other h0 h1 => ?_⟩
  · rw [hother2 addr hne, hbyte1]
  · rw [hother2 other h1, hother1 other h0]

/-- What `load` of an image makes of a state: the image from 0x8000 up, the base address in the vector, and every byte of
neither as before (R251). -/
structure Loaded (program : List Byte) (s t : State) : Prop where
  same     : SameButMemory s t
  image    : ∀ k (h : k < program.length), k ≠ 0x7FFC → k ≠ 0x7FFD →
    t.byteAt (BitVec.ofNat 16 (0x8000 + k)) = some program[k]
  vectorLo : t.byteAt 0xFFFC = some 0x00
  vectorHi : t.byteAt 0xFFFD = some 0x80
  other    : ∀ addr : Word, (addr.toNat < 0x8000 ∨ 0x8000 + program.length ≤ addr.toNat) → addr ≠ 0xFFFC →
    addr ≠ 0xFFFD → t.byteAt addr = s.byteAt addr

/-- Different bytes of an image that fits stand at different addresses. -/
theorem imageAddress_ne {k n : Nat} (hk : k < 0x8000) (hn : n < 0x8000) (h : k ≠ n) :
    BitVec.ofNat 16 (0x8000 + k) ≠ BitVec.ofNat 16 (0x8000 + n) := by
  intro e
  have := congrArg BitVec.toNat e
  simp only [BitVec.toNat_ofNat] at this
  omega

/-- `load` of an image that fits completes in a halted machine and leaves it loaded (R251). -/
theorem loadProgram_loaded {s : State} {program : List Byte} (h : s.seq = .halted) (hi : s.memoryInv)
    (hlen : program.length ≤ 0x8000) : ∃ t, loadProgram program s = .next t ∧ Loaded program s t := by
  obtain ⟨s1, hbytes, hsame1, hi1, himage, hother1⟩ := writeBytes_high program 0x8000 hi le_rfl (by omega)
  obtain ⟨t, hword, hsame2, hlo, hhi, hother2⟩ :=
    writeWord_high hi1 (addr := 0xFFFC) (by decide) (by decide) 0x8000
  refine ⟨t, loadProgram_of_writes h hlen hbytes hword, hsame1.trans hsame2, fun k hk h0 h1 => ?_, hlo, hhi,
    fun addr ha h0 h1 => ?_⟩
  · have hlt : k < 0x8000 := by omega
    rw [hother2 _ (imageAddress_ne hlt (by decide) h0) (imageAddress_ne hlt (by decide) h1), himage k hk]
  · rw [hother2 addr h0 h1, hother1 addr ha]

/-- Settles O50: the image's bytes, then the vector's two bytes over them. -/
theorem loadPlacesTheImageAndTheVector : Obligations.LoadPlacesTheImageAndTheVector := by
  intro program s h hi
  refine ⟨fun hlen => ?_, fun hlen => ?_⟩
  · obtain ⟨t, hload, hsame, himage, hlo, hhi, hother⟩ := loadProgram_loaded h hi hlen
    obtain ⟨ha, hx, hy, hp, hpc, hseq, hfault, hlog, hcfg⟩ := hsame
    exact ⟨t, hload, ⟨ha, hx, hy, hp, hpc, hseq, hfault, hlog, hcfg⟩, himage, hlo, hhi, hother⟩
  · rw [loadProgram, whenHalted_of_halted h, if_neg (by omega)]

/-- Settles O52: `reset` samples the vector that `load` has written, and neither it nor the start of `run` writes a cell. -/
theorem loadAndRunStartsAtTheImageBase : Obligations.LoadAndRunStartsAtTheImageBase := by
  intro program s h hi hlen
  obtain ⟨s1, hload, hloaded⟩ := loadProgram_loaded h hi hlen
  have h1 : s1.seq = .halted := hloaded.same.seq.trans h
  obtain ⟨lo, hi, hlo, hhi, hreset⟩ := resetCommand_of_halted h1
  obtain rfl : 0x00 = lo := Option.some.inj (hloaded.vectorLo.symm.trans hlo)
  obtain rfl : 0x80 = hi := Option.some.inj (hloaded.vectorHi.symm.trans hhi)
  have hstart := startRun_of_halted (s := { s1 with a := 0, x := 0, y := 0, p := 0, pc := assemble 0x80 0x00 }) h1
  have hpc : assemble 0x80 0x00 = 0x8000 := by decide
  refine ⟨s1, _, _, hload, hreset, hstart, ⟨rfl, rfl, rfl, rfl, hpc, rfl⟩, fun addr ha h0 h1 => ?_,
    loadAndRun_of_commands hload hreset hstart⟩
  rw [← hloaded.other addr ha h0 h1]
  apply byteAt_congr <;> rfl

/-! ### Commands act only while halted -/

theorem SameButMemory.writeCell (s : State) (c : CellRef) (v : Byte) : SameButMemory s (s.writeCell c v) := by
  constructor <;> simp

/-- From 0x8000 up a byte write completes and writes memory only, also where memory is not in canonical form. -/
theorem memWrite_high_ok (s : State) {addr : Word} (h : 0x8000 ≤ addr.toNat) (v : Byte) :
    ∃ t, memWrite addr v s = .ok () t ∧ SameButMemory s t := by
  obtain ⟨⟨c, hc⟩, -⟩ := target_high s h
  exact ⟨_, memWrite_cell hc v, SameButMemory.writeCell s c v⟩

/-- So do bytes written to ascending addresses from 0x8000 up. -/
theorem writeBytes_high_ok (bytes : List Byte) (n : Nat) (s : State) (h1 : 0x8000 ≤ n)
    (h2 : n + bytes.length ≤ 0x10000) :
    ∃ t, writeBytes (BitVec.ofNat 16 n) bytes s = .ok () t ∧ SameButMemory s t := by
  induction bytes generalizing n s with
  | nil => exact ⟨s, rfl, SameButMemory.refl s⟩
  | cons b bs ih =>
    rw [List.length_cons] at h2
    have hn : (BitVec.ofNat 16 n).toNat = n := by rw [BitVec.toNat_ofNat]; omega
    obtain ⟨s1, hwrite, hsame1⟩ := memWrite_high_ok s (addr := BitVec.ofNat 16 n) (by omega) b
    obtain ⟨t, hbytes, hsame2⟩ := ih (n + 1) s1 (by omega) (by omega)
    rw [BitVec.ofNat_add] at hbytes
    exact ⟨t, by rw [writeBytes, hwrite, Res.bind_ok]; exact hbytes, hsame1.trans hsame2⟩

/-- `load` of an image that fits completes in every halted machine and leaves it halted (R251). -/
theorem loadProgram_of_halted {s : State} {program : List Byte} (h : s.seq = .halted)
    (hlen : program.length ≤ 0x8000) : ∃ t, loadProgram program s = .next t ∧ t.seq = .halted := by
  obtain ⟨s1, hbytes, hsame1⟩ := writeBytes_high_ok program 0x8000 s le_rfl (by omega)
  obtain ⟨s2, hlo, hsame2⟩ := memWrite_high_ok s1 (addr := 0xFFFC) (by decide) (lowByte 0x8000)
  obtain ⟨t, hhi, hsame3⟩ := memWrite_high_ok s2 (addr := 0xFFFD) (by decide) (highByte 0x8000)
  have hsame := hsame1.trans (hsame2.trans hsame3)
  exact ⟨t, loadProgram_of_writes h hlen hbytes ((writeWord_of_memWrite hlo).trans hhi), hsame.seq.trans h⟩

/-- `load_and_run` of an image that fits is a run of the machine in every halted state (R255). -/
theorem loadAndRun_of_halted {s : State} {program : List Byte} (h : s.seq = .halted)
    (hlen : program.length ≤ 0x8000) (fuel : Nat) :
    ∃ t, t.seq = .running ∧ loadAndRun fuel program s = runLoop fuel t := by
  obtain ⟨s1, hload, h1⟩ := loadProgram_of_halted h hlen
  obtain ⟨lo, hi, -, -, hreset⟩ := resetCommand_of_halted h1
  exact ⟨_, rfl, loadAndRun_of_commands hload hreset (startRun_of_halted h1) fuel⟩

/-- A state that refuses what asks for a halted machine refuses every command and every host access (R254, R256). -/
theorem commands_refused {s : State} {r : Refusal} (hc : ∀ k, whenHalted s k = .refused r)
    (ha : ∀ {α : Type} (x : Res α), hostAccess s x = .stop (.refused r)) (program : List Byte) (fuel : Nat)
    (addr w : Word) (v : Byte) :
    (startRun s = .refused r ∧ runCommand fuel s = .refused r ∧ resetCommand s = .refused r ∧
      loadProgram program s = .refused r ∧ loadAndRun fuel program s = .refused r) ∧
    hostRead addr s = .stop (.refused r) ∧ hostWrite addr v s = .stop (.refused r) ∧
    hostReadWord addr s = .stop (.refused r) ∧ hostWriteWord addr w s = .stop (.refused r) := by
  have hstart : startRun s = .refused r := hc _
  have hload : loadProgram program s = .refused r := hc _
  refine ⟨⟨hstart, ?_, hc _, hload, ?_⟩, ha _, ha _, ha _, ha _⟩
  · rw [runCommand, hstart, thenCommand_refused]
  · rw [loadAndRun, hload, thenCommand_refused]

/-- Settles O53, by the three states of the sequencer. -/
theorem commandsActOnlyWhileHalted : Obligations.CommandsActOnlyWhileHalted := by
  intro s program fuel addr w v
  refine ⟨fun h => ?_, fun h => ?_, fun h => ?_⟩
  · have hstart := startRun_of_halted h
    obtain ⟨lo, hi, -, -, hreset⟩ := resetCommand_of_halted h
    refine ⟨⟨hstart, runCommand_of_startRun hstart fuel, ⟨_, hreset⟩, fun hlen => ?_⟩, hostAccess_of_halted h _,
      hostAccess_of_halted h _, hostAccess_of_halted h _, hostAccess_of_halted h _⟩
    obtain ⟨t, hload, -⟩ := loadProgram_of_halted h hlen
    exact ⟨⟨t, hload⟩, loadAndRun_of_halted h hlen fuel⟩
  · exact commands_refused (whenHalted_of_faulted h) (hostAccess_of_faulted h) program fuel addr w v
  · exact commands_refused (whenHalted_of_running h) (hostAccess_of_running h) program fuel addr w v

/-! ### The invariant -/

theorem State.Inv.logged {s : State} (h : s.Inv) {addr : Word} (hu : s.target addr = .unmapped) (e : LogEvent) :
    (s.logged e).Inv :=
  ⟨memoryInv_logged h.1 hu e, h.2⟩

theorem State.Inv.writeCell {s : State} (h : s.Inv) {addr : Word} {c : CellRef} (hc : s.target addr = .cell c)
    (v : Byte) : (s.writeCell c v).Inv := by
  obtain ⟨hm, hp, hf⟩ := h
  refine ⟨memoryInv_writeCell hm hc v, ?_, ?_⟩
  · rwa [State.statusInv, State.writeCell_p]
  · rwa [State.latchInv, State.writeCell_fault, State.writeCell_seq]

/-- A fatal condition sets the latch and `SEQ` together (R20, R225). -/
theorem State.Inv.raise {s : State} (h : s.Inv) (f : Fatal) : (s.raise f).Inv := by
  obtain ⟨hm, hp, -⟩ := h
  exact ⟨hm, hp, iff_of_true rfl rfl⟩

/-- The next state of the outcome, if it has one, meets the invariant. -/
def Outcome.KeepsInv (o : Outcome) : Prop := ∀ t, o = .next t → t.Inv

/-- The state that the operation leaves, going on or in a fatal condition, meets the invariant. -/
def Res.KeepsInv {α : Type} (r : Res α) : Prop :=
  (∀ v t, r = .ok v t → t.Inv) ∧ ∀ t, r = .stop (.next t) → t.Inv

theorem Outcome.keepsInv_next {s : State} (h : s.Inv) : Outcome.KeepsInv (.next s) := by
  rintro _ ⟨⟩
  exact h

theorem Outcome.keepsInv_refused (r : Refusal) : Outcome.KeepsInv (.refused r) := nofun

theorem Res.keepsInv_ok {α : Type} {s : State} (h : s.Inv) (v : α) : (Res.ok v s).KeepsInv :=
  ⟨by rintro _ _ ⟨⟩; exact h, nofun⟩

theorem Res.keepsInv_refused {α : Type} (r : Refusal) : (Res.stop (.refused r) : Res α).KeepsInv := ⟨nofun, nofun⟩

theorem Res.KeepsInv.bind {α β : Type} {r : Res α} {k : α → State → Res β} (h : r.KeepsInv)
    (hk : ∀ v s, s.Inv → (k v s).KeepsInv) : (r.bind k).KeepsInv := by
  obtain ⟨hok, hstop⟩ := h
  cases r with
  | ok v s => exact hk v s (hok v s rfl)
  | stop o => exact ⟨nofun, fun t e => hstop t (by cases e; rfl)⟩

theorem Res.KeepsInv.finish {α : Type} {r : Res α} {k : α → State → Outcome} (h : r.KeepsInv)
    (hk : ∀ v s, s.Inv → Outcome.KeepsInv (k v s)) : Outcome.KeepsInv (r.finish k) := by
  obtain ⟨hok, hstop⟩ := h
  cases r with
  | ok v s => exact hk v s (hok v s rfl)
  | stop o => exact fun t e => hstop t (congrArg Res.stop e)

theorem thenCommand_keepsInv {o : Outcome} {k : State → Outcome} (h : Outcome.KeepsInv o)
    (hk : ∀ s, s.Inv → Outcome.KeepsInv (k s)) : Outcome.KeepsInv (thenCommand o k) := by
  cases o with
  | next s => exact hk s (h s rfl)
  | fault r => nofun
  | refused r => nofun

theorem whenHalted_keepsInv {s : State} {k : Outcome} (hk : s.seq = .halted → Outcome.KeepsInv k) :
    Outcome.KeepsInv (whenHalted s k) := by
  cases h : s.seq with
  | halted => rw [whenHalted_of_halted h]; exact hk h
  | running => rw [whenHalted_of_running h]; exact Outcome.keepsInv_refused _
  | faulted => rw [whenHalted_of_faulted h]; exact Outcome.keepsInv_refused _

theorem hostAccess_keepsInv {α : Type} {r : Res α} (hr : r.KeepsInv) (s : State) : (hostAccess s r).KeepsInv := by
  cases h : s.seq with
  | halted => rw [hostAccess_of_halted h]; exact hr
  | running => rw [hostAccess_of_running h]; exact Res.keepsInv_refused _
  | faulted => rw [hostAccess_of_faulted h]; exact Res.keepsInv_refused _

/-- `create` gives a state that meets the invariant (R250). -/
theorem create_keepsInv (c : Config) : Outcome.KeepsInv (create c) := by
  intro t h
  obtain ⟨hwf, rfl⟩ := wf_of_create_next h
  exact ⟨created_memoryInv hwf, .inl rfl, iff_of_false nofun nofun⟩

section

variable {s : State} (hi : s.Inv)
include hi

theorem memRead_keepsInv (addr : Word) : (memRead addr s).KeepsInv := by
  refine ⟨fun v t h => ?_, fun t h => ?_⟩
  · obtain ⟨c, -, -, rfl⟩ | ⟨hu, -, rfl⟩ := memRead_ok h
    · exact hi
    · exact hi.logged hu _
  · obtain ⟨f, rfl⟩ := memRead_stop_next h
    exact hi.raise f

theorem memWrite_keepsInv (addr : Word) (v : Byte) : (memWrite addr v s).KeepsInv := by
  refine ⟨fun _ t h => ?_, fun t h => ?_⟩
  · obtain ⟨c, hc, rfl⟩ | ⟨hu, rfl⟩ := memWrite_ok h
    · exact hi.writeCell hc v
    · exact hi.logged hu _
  · obtain ⟨f, rfl⟩ := memWrite_stop_next h
    exact hi.raise f

theorem readWord_keepsInv (addr : Word) : (readWord addr s).KeepsInv :=
  (memRead_keepsInv hi addr).bind fun _ _ h1 => (memRead_keepsInv h1 _).bind fun _ _ h2 => Res.keepsInv_ok h2 _

theorem writeWord_keepsInv (addr w : Word) : (writeWord addr w s).KeepsInv :=
  (memWrite_keepsInv hi addr _).bind fun _ _ h1 => memWrite_keepsInv h1 _ _

theorem writeBytes_keepsInv (addr : Word) (bytes : List Byte) : (writeBytes addr bytes s).KeepsInv := by
  induction bytes generalizing s addr with
  | nil => exact Res.keepsInv_ok hi _
  | cons b bs ih => exact (memWrite_keepsInv hi addr b).bind fun _ _ h1 => ih h1 _

theorem loadProgram_keepsInv (program : List Byte) : Outcome.KeepsInv (loadProgram program s) := by
  refine whenHalted_keepsInv fun _ => ?_
  split
  · exact (writeBytes_keepsInv hi _ program).finish fun _ _ h1 =>
      (writeWord_keepsInv h1 _ _).finish fun _ _ h2 => Outcome.keepsInv_next h2
  · exact Outcome.keepsInv_refused _

theorem resetCommand_keepsInv : Outcome.KeepsInv (resetCommand s) :=
  whenHalted_keepsInv fun _ => (readWord_keepsInv hi _).finish fun _ _ ⟨hm, _, hf⟩ =>
    Outcome.keepsInv_next ⟨hm, .inl rfl, hf⟩

/-- A halted machine has an empty latch, so that it may run (R20). -/
theorem startRun_keepsInv : Outcome.KeepsInv (startRun s) := by
  obtain ⟨hm, hp, hf⟩ := hi
  refine whenHalted_keepsInv fun h => Outcome.keepsInv_next ⟨hm, hp, iff_of_false (fun hl => ?_) nofun⟩
  exact absurd (h.symm.trans (hf.1 hl)) (by decide)

/-- The run loop keeps the invariant, since every step does. -/
theorem runLoop_keepsInv (fuel : Nat) : Outcome.KeepsInv (runLoop fuel s) := by
  induction fuel generalizing s with
  | zero => exact Outcome.keepsInv_next hi
  | succ fuel ih =>
    rcases s.running_or_ended with hr | hend
    · cases h : step s with
      | next t =>
        rw [runLoop_succ_of_step hr h]
        exact ih (stepKeepsTheInvariant s t hi h)
      | fault r => simp only [runLoop, hr, h]; nofun
      | refused r => simp only [runLoop, hr, h]; nofun
    · rw [runLoop_of_ended hend]
      exact Outcome.keepsInv_next hi

theorem runCommand_keepsInv (fuel : Nat) : Outcome.KeepsInv (runCommand fuel s) :=
  thenCommand_keepsInv (startRun_keepsInv hi) fun _ h => runLoop_keepsInv h fuel

theorem loadAndRun_keepsInv (fuel : Nat) (program : List Byte) : Outcome.KeepsInv (loadAndRun fuel program s) :=
  thenCommand_keepsInv (loadProgram_keepsInv hi program) fun _ h1 =>
    thenCommand_keepsInv (resetCommand_keepsInv h1) fun _ h2 => runCommand_keepsInv h2 fuel

/-- A host's word write at the RAM window's last address writes its first byte and raises the fatal condition of 0x2000
(R56, R256). -/
theorem hostWriteWord_cut (w : Word) (h : s.seq = .halted) (hb : s.cfg.memImpl = .bus) (hn : s.cfg.ioDevice = .none) :
    ∃ t, hostWriteWord 0x1FFF w s = .stop (.next t) ∧ t.byteAt 0x1FFF = some (lowByte w) ∧
      t.fault = some (.unimplementedDevice .write 0x2000 0x2000) := by
  have hc := target_ram hb (addr := 0x1FFF) (by decide)
  have hm : s.target (0x1FFF + 1) = .ioWindow 0x2000 := target_io hb (by decide) (by decide)
  have hcut := wordWriteCutByIoWindowKeepsItsFirstByte s _ w _ _ hc hm hn
  have hbyte : (s.writeCell (.ram ((0x1FFF : Word) &&& 0x07FF).toNat) (lowByte w)).byteAt 0x1FFF = some (lowByte w) := by
    rw [State.byteAt, memRead_writeCell_same hi.1 hc, Res.value_ok]
  refine ⟨_, (hostAccess_of_halted h _).trans hcut, ?_, rfl⟩
  rw [← hbyte]
  apply byteAt_congr <;> rfl

end

/-- Settles O57, operation by operation; the cut word write is one of the host's four accesses. -/
theorem commandsKeepTheInvariant : Obligations.CommandsKeepTheInvariant := by
  refine ⟨create_keepsInv, fun s hi => ?_⟩
  have hread := fun addr => hostAccess_keepsInv (memRead_keepsInv hi addr) s
  have hwrite := fun addr v => hostAccess_keepsInv (memWrite_keepsInv hi addr v) s
  have hreadWord := fun addr => hostAccess_keepsInv (readWord_keepsInv hi addr) s
  have hwriteWord := fun addr w => hostAccess_keepsInv (writeWord_keepsInv hi addr w) s
  refine ⟨loadProgram_keepsInv hi, resetCommand_keepsInv hi, startRun_keepsInv hi, runCommand_keepsInv hi,
    loadAndRun_keepsInv hi, fun addr => (hread addr).1, fun addr => (hread addr).2, fun addr v => (hwrite addr v).1 (),
    fun addr v => (hwrite addr v).2, fun addr => (hreadWord addr).1, fun addr => (hreadWord addr).2,
    fun addr w => (hwriteWord addr w).1 (), fun addr w => (hwriteWord addr w).2, fun w h hb hn => ?_⟩
  obtain ⟨t, ht, hbyte, hfault⟩ := hostWriteWord_cut hi w h hb hn
  exact ⟨t, ht, (hwriteWord 0x1FFF w).2 t ht, hbyte, hfault⟩

end Sys2Proof.Machine
